-- ==== Sys2Proof/Word.lean ====
section
/-! DEFINITION. The words of the host bus: 32-bit data, 32-bit byte addresses, bytes (00_scope.md R8, R11). -/

namespace Sys2Proof

/-- A 32-bit data word, bit 0 the least significant (00_scope.md R11). -/
abbrev Word := BitVec 32

/-- A byte: a symbol, a source byte, an output byte. -/
abbrev Byte := BitVec 8

/-- A bit string, its first bit at the head (00_scope.md R12). -/
abbrev Bits := List Bool

end Sys2Proof
end

