-- ==== Sys2Proof/Syntax.lean ====
section
/-! DEFINITION. The command set HCMD version 1 (00_scope.md R2): one constructor per row of spec/opcode_table.json.
No command has an operand field (30_encoding.md R69), so no constructor has an argument. -/

namespace Sys2Proof

/-- The commands of 30_encoding.md R67. -/
inductive Instr where
  /-- BUILD_TREE, word 0x0000_0001 (41_tree_builder.md R91). -/
  | buildTree
  /-- BUILD_CODES, word 0x0000_0002 (42_code_assigner.md R102). -/
  | buildCodes
  /-- ENCODE, word 0x0000_0003 (43_bitstream_encoder.md R112). -/
  | encode
  deriving DecidableEq, Repr

end Sys2Proof
end

