-- ==== Sys2Proof/Machine/Data.lean ====
section
/-! DEFINITION. The entries of the arrays of 10_state.md section 3, as plain data. -/

namespace Sys2Proof.Machine

/-- A FrequencyEntry, an entry of FTAB (10_state.md R32). -/
structure FreqEntry where
  sym : Byte
  cnt : BitVec 32
  deriving DecidableEq, Repr, Inhabited

/-- An entry of NODE (10_state.md R33). `lp` and `rp` say whether the left and the right child are present, `hs` whether
the symbol is. -/
structure Node where
  cnt : BitVec 40
  lp : Bool
  left : BitVec 9
  rp : Bool
  right : BitVec 9
  hs : Bool
  sym : Byte
  deriving DecidableEq, Repr, Inhabited

/-- An entry of CTAB (10_state.md R35): the codeword is the first `len` bits of the 256-bit field `code`, the first bit of
the codeword in the field's most significant bit (the left-aligned order of 30_encoding.md R72). -/
structure CodeEntry where
  valid : Bool
  len : BitVec 8
  code : BitVec 256
  deriving DecidableEq, Repr, Inhabited

end Sys2Proof.Machine
end

