-- ==== Sys2Proof/Config.lean ====
section
/-! DEFINITION. What an implementation fixes (the parameters of 00_scope.md R8 and R9) and the free values: what the spec
leaves unspecified. A free value is an opaque constant with no body, so nothing can be proved of it. -/

namespace Sys2Proof.Config

/-- NSYM, the number of symbol values (00_scope.md R8). -/
abbrev numSymbols : Nat := 256

/-- MAX_ENTRIES, the capacity of the frequency table (00_scope.md R8). -/
abbrev maxEntries : Nat := 256

/-- MAX_NODES, the capacity of the node store (00_scope.md R8). -/
abbrev maxNodes : Nat := 511

/-- MAX_CODE_LEN, the longest codeword in bits (00_scope.md R8). -/
abbrev maxCodeLen : Nat := 255

/-- The open parameters of a block (00_scope.md R9). BLOCK_BASE is not among them: every address of the model is an offset
from it (log 4). -/
structure Params where
  /-- MAX_SRC_LEN, the capacity of SRC in bytes. -/
  maxSrcLen : Nat
  /-- OUT_CAP_BYTES, the capacity of OUT in bytes. -/
  outCapBytes : Nat
  deriving DecidableEq, Repr

/-- The reference values of 00_scope.md R9. -/
def reference : Params := { maxSrcLen := 65536, outCapBytes := 2097152 }

/-! Free values of the array cells after reset (10_state.md R38): one draw per cell. The first argument counts the resets
so far, the second is the cell's index. Log 5. -/

/-- The symbol field of FTAB[i] after a reset. -/
opaque resetFtabSym : Nat → Nat → Byte

/-- The count field of FTAB[i] after a reset. -/
opaque resetFtabCnt : Nat → Nat → BitVec 32

/-- NODE[i] after a reset. -/
opaque resetNode : Nat → Nat → Machine.Node

/-- CTAB[s] after a reset. -/
opaque resetCode : Nat → Nat → Machine.CodeEntry

/-- SRC[i] after a reset. -/
opaque resetSrc : Nat → Nat → Byte

/-- OUT[j] after a reset. -/
opaque resetOut : Nat → Nat → Byte

/-- The word a read of a result area answers while BUSY = 1 (20_memory.md R53): one draw per read, the argument counts the
draws so far. Log 6. -/
opaque busyRead : Nat → Word

end Sys2Proof.Config
end

