-- ==== Sys2Proof/WellFormed.lean ====
section
/-! DEFINITION. The checks on what is given to the block: the form of a command word (30_encoding.md R66, R67), and the
constraints on the open parameters (00_scope.md R9). A command has no field, so each command is well formed. -/

namespace Sys2Proof

/-- MBZ of a command word: bits 31 to 4 (30_encoding.md R66). -/
def cmdMbz (w : Word) : BitVec 28 := w.extractLsb' 4 28

/-- OP of a command word: bits 3 to 0 (30_encoding.md R66). -/
def cmdOp (w : Word) : BitVec 4 := w.extractLsb' 0 4

/-- A word selects a command when MBZ = 0 and OP is 1, 2 or 3 (30_encoding.md R67). -/
def cmdWellFormed (w : Word) : Bool :=
  cmdMbz w == 0 && (cmdOp w == 1 || cmdOp w == 2 || cmdOp w == 3)

/-- The constraints of 00_scope.md R9. -/
abbrev paramsWellFormed (p : Config.Params) : Prop :=
  4 ≤ p.maxSrcLen ∧ p.maxSrcLen ≤ 2 ^ 24 ∧ p.maxSrcLen % 4 = 0 ∧
  8 ≤ p.outCapBytes ∧ p.outCapBytes ≤ 2 ^ 24 ∧ p.outCapBytes % 4 = 0

end Sys2Proof
end

