-- ==== Sys2Proof/Decode.lean ====
section
/-! DEFINITION. The decoder of a command word, total on every 32-bit word, and the encoder, both from the tables of
30_encoding.md. -/

namespace Sys2Proof

/-- Why a word is no command (30_encoding.md R68). -/
inductive DecodeError where
  /-- MBZ, bits 31 to 4, is not zero. -/
  | mbzNotZero
  /-- MBZ is zero and OP is 0x0 or 0x4 to 0xF. -/
  | noSuchOp
  deriving DecidableEq, Repr

/-- The opcode map of 30_encoding.md R67. -/
def decodeOp (op : BitVec 4) : Except DecodeError Instr :=
  if op = 0x1 then .ok .buildTree
  else if op = 0x2 then .ok .buildCodes
  else if op = 0x3 then .ok .encode
  else .error .noSuchOp

/-- The decoder of 30_encoding.md R67. -/
def decode (w : Word) : Except DecodeError Instr :=
  if cmdMbz w = 0 then decodeOp (cmdOp w) else .error .mbzNotZero

/-- The command number of 30_encoding.md R67. -/
def opOf : Instr → BitVec 4
  | .buildTree => 0x1
  | .buildCodes => 0x2
  | .encode => 0x3

/-- The command word in format CMD32 (30_encoding.md R66): MBZ then OP. -/
def encode (i : Instr) : Word := (0 : BitVec 28) ++ opOf i

/-- The command the decoder reads from a word whose bits are `w`, numbered as spec/opcode_table.json numbers them. -/
def decodeTableWord (nbits w : Nat) : Option Instr :=
  (decode (BitVec.ofNat 32 (w % 2 ^ nbits))).toOption

end Sys2Proof
end

