-- ==== Sys2Proof/Machine/State.lean ====
section
/-! DEFINITION. The state of the block (10_state.md), as plain data, and the state after reset (70_reset_and_hazards.md
R140). -/

namespace Sys2Proof.Machine

/-- An array as the list of its cells written since reset: keys strictly rising, one value per key (log 5). -/
abbrev Table (α : Type) := List (Nat × α)

/-- The canonical form of an array: keys strictly rising. -/
abbrev Table.wf {α : Type} (t : Table α) : Prop := t.Pairwise fun x y => x.1 < y.1

/-- Every cell listed lies below the array's size. -/
abbrev Table.below {α : Type} (t : Table α) (size : Nat) : Prop := ∀ c ∈ t, c.1 < size

/-- A byte memory (SRC, OUT): the bytes written since reset. -/
abbrev Memory := List Host.Cell

/-- The canonical form of a byte memory. What an unlisted byte reads as is its reset draw, which no value in the list can be
compared with: the list holds exactly the bytes written since reset (log 5). -/
abbrev Memory.wf (m : Memory) : Prop := Table.wf m

/-- The size of a HOST transaction in bytes (20_memory.md R46). -/
inductive BusSize where
  | b1
  | b2
  | b4
  deriving DecidableEq, Repr

/-- What happens next: one of the four kinds of step of 00_scope.md R14. -/
inductive Event where
  /-- HOST performs MemRead(addr, n) (20_memory.md R50). -/
  | hostRead (addr : Word) (n : BusSize)
  /-- HOST performs MemWrite(addr, n, v) (20_memory.md R51). -/
  | hostWrite (addr : Word) (n : BusSize) (v : Word)
  /-- ENGINE takes its completion step (40_command_protocol.md R80). -/
  | engineStep
  /-- The reset input is asserted (70_reset_and_hazards.md R139). -/
  | resetInput
  deriving DecidableEq, Repr

/-- The response of the bus (20_memory.md R46, R49). -/
inductive BusResponse where
  | okay
  | error
  deriving DecidableEq, Repr

/-- What the bus answers to a transaction (20_memory.md R46). -/
inductive BusAnswer where
  | readAnswer (r : BusResponse) (data : Word)
  | writeAnswer (r : BusResponse)
  deriving DecidableEq, Repr

/-- The state. The first five fields are the model's own; the others are the spec's. -/
structure State where
  /-- MAX_SRC_LEN and OUT_CAP_BYTES of this block (00_scope.md R9), read at SRC_CAP and OUT_CAP (10_state.md R18, R19). No
  step changes them. Log 3. -/
  params : Config.Params
  /-- How often the reset input has been asserted. Log 5. -/
  resets : Nat
  /-- How many reads have been answered with an unspecified value. Log 6. -/
  draws : Nat
  /-- The events that happen next, oldest first. Log 1. -/
  inbox : List Event
  /-- The bus answer to HOST's last transaction. Log 7. -/
  answer : Option BusAnswer
  /-- CTRL bit 0, IE (10_state.md R20). -/
  ie : Bool
  /-- STATUS bit 0, BUSY (10_state.md R22). -/
  busy : Bool
  /-- STATUS bit 1, DONE (10_state.md R22). -/
  done : Bool
  /-- STATUS bit 3, TREE_VALID (10_state.md R22). -/
  treeValid : Bool
  /-- STATUS bit 4, CODES_VALID (10_state.md R22). -/
  codesValid : Bool
  /-- STATUS bit 5, OUT_VALID (10_state.md R22). -/
  outValid : Bool
  /-- STATUS bit 6, OVR (10_state.md R22). -/
  ovr : Bool
  /-- ERR.CODE (10_state.md R23). -/
  err : BitVec 4
  /-- ERR_INFO (10_state.md R24). -/
  errInfo : Word
  /-- ERR_INDEX (10_state.md R25). -/
  errIndex : Word
  /-- FTAB_LEN.N (10_state.md R26). -/
  ftabLen : BitVec 9
  /-- SRC_LEN (10_state.md R27). -/
  srcLen : Word
  /-- NODE_COUNT (10_state.md R28). -/
  nodeCount : BitVec 9
  /-- ROOT_CNT_LO (10_state.md R29). -/
  rootCntLo : Word
  /-- ROOT_CNT_HI bits 7 to 0 (10_state.md R29). -/
  rootCntHi : BitVec 8
  /-- HDR_BITLEN bits 15 to 0 (10_state.md R30). -/
  hdrBitLen : BitVec 16
  /-- OUT_BITLEN (10_state.md R31). -/
  outBitLen : Word
  /-- CMD_LATCH, hidden: the word of the command in progress (10_state.md R40). -/
  cmdLatch : Word
  /-- FTAB[0..255].sym (10_state.md R32). -/
  ftabSym : Table Byte
  /-- FTAB[0..255].cnt (10_state.md R32). -/
  ftabCnt : Table (BitVec 32)
  /-- NODE[0..510] (10_state.md R33). -/
  node : Table Node
  /-- CTAB[0..255] (10_state.md R35). -/
  ctab : Table CodeEntry
  /-- SRC (10_state.md R36). -/
  src : Memory
  /-- OUT (10_state.md R37). -/
  out : Memory
  deriving DecidableEq, Repr

/-- Why the machine stops. Both are raised by BUILD_CODES only, and only in a state whose NODE store holds no tree of the
form of 10_state.md R34 while TREE_VALID = 1, which no run reaches. -/
inductive Fault where
  /-- BUILD_CODES: the pseudocode of 42_code_assigner.md R102 reads a NODE entry that does not exist (the root of an empty
  tree, or index 511). Safe: the model stops, and claims nothing. Log 8. -/
  | nodeIndexOutOfRange
  /-- BUILD_CODES: the traversal of 42_code_assigner.md R104 never ends, because a node is its own descendant. Safe: the
  model stops, and claims nothing. Log 9. -/
  | traversalNeverEnds
  deriving DecidableEq, Repr

/-- What the model gives no meaning. -/
inductive Refusal where
  /-- The command has no meaning yet. Raised by exec's arm of that command; no arm raises it now. Safe. -/
  | notModelled (mnemonic : String)
  deriving DecidableEq, Repr

/-- The block with parameters `p` right after a reset that is its `resets`-th (70_reset_and_hazards.md R140): every register
0, no array cell written. -/
def State.resetWith (p : Config.Params) (resets : Nat) : State where
  params := p
  resets := resets
  draws := 0
  inbox := []
  answer := none
  ie := false
  busy := false
  done := false
  treeValid := false
  codesValid := false
  outValid := false
  ovr := false
  err := 0
  errInfo := 0
  errIndex := 0
  ftabLen := 0
  srcLen := 0
  nodeCount := 0
  rootCntLo := 0
  rootCntHi := 0
  hdrBitLen := 0
  outBitLen := 0
  cmdLatch := 0
  ftabSym := []
  ftabCnt := []
  node := []
  ctab := []
  src := []
  out := []

/-- The block with the reference parameters right after reset (70_reset_and_hazards.md R140). -/
def State.reset : State := State.resetWith Config.reference 0

end Sys2Proof.Machine
end

