-- ==== Sys2Proof/Machine/Bits.lean ====
section
/-! DEFINITION. Bit strings, codeword fields and byte order (00_scope.md R12, 20_memory.md R55, R56, 30_encoding.md R72,
R76). -/

namespace Sys2Proof.Machine

/-- msb_N(v): the N-bit string of v, bit N-1 first (00_scope.md R12). -/
def msbBits (n v : Nat) : Bits := (List.range n).map fun k => v.testBit (n - 1 - k)

/-- The codeword of a CTAB entry: its first `len` bits (10_state.md R35). -/
def codeBits (e : CodeEntry) : Bits := (List.range e.len.toNat).map fun k => e.code.getMsbD k

/-- A bit string left-aligned in the 256-bit code field, unused bits 0 (10_state.md R35, 30_encoding.md R72). -/
def codeField (p : Bits) : BitVec 256 := (BitVec.ofBoolListBE p).setWidth 256 <<< (256 - p.length)

/-- The CTAB entry of a symbol with codeword `p` (42_code_assigner.md R108). -/
def validEntry (p : Bits) : CodeEntry := { valid := true, len := BitVec.ofNat 8 p.length, code := codeField p }

/-- The CTAB entry of a symbol with no codeword (42_code_assigner.md R108). -/
def absentEntry : CodeEntry := { valid := false, len := 0, code := 0 }

/-- PackByte(S, T, j) with T = |S| (43_bitstream_encoder.md R112, 30_encoding.md R76): stream bit 8j+k in bit 7-k, 0 past
the end of the stream. -/
def packByte (s : Bits) (j : Nat) : Byte :=
  BitVec.ofNat 8 (((List.range 8).map fun k => if s.getD (8 * j + k) false then 2 ^ (7 - k) else 0).sum)

/-- The first `n` bytes of a memory at `off`, as a little-endian word, upper bits 0 (20_memory.md R50, R55). -/
def leWord (get : Nat → Byte) : Nat → Nat → Word
  | 0, _ => 0
  | n + 1, off => (leWord get n (off + 1) <<< 8) ||| (get off).setWidth 32

/-- The number of bytes of a transaction (20_memory.md R46). -/
def sizeBytes : BusSize → Nat
  | .b1 => 1
  | .b2 => 2
  | .b4 => 4

/-- The low `8 * n` bits of a word, upper bits 0: what a transaction of n bytes can carry (20_memory.md R46, R50). -/
def lowBytes (n : BusSize) (w : Word) : Word := w &&& BitVec.ofNat 32 (2 ^ (8 * sizeBytes n) - 1)

end Sys2Proof.Machine
end

