-- ==== Sys2Proof/Machine/Ops.lean ====
section
/-! DEFINITION. The shared operations: reading and writing an array, and the completion of a command, with or without an
error (40_command_protocol.md R80, R82, R84). -/

namespace Sys2Proof.Machine

/-- The value a cell was last given since reset, if any. -/
def Table.find {α : Type} : Table α → Nat → Option α
  | [], _ => none
  | (a, v) :: t, k => if k = a then some v else Table.find t k

/-- Write one cell, keeping the keys rising. -/
def Table.write {α : Type} : Table α → Nat → α → Table α
  | [], k, v => [(k, v)]
  | (a, w) :: t, k, v =>
    if k < a then (k, v) :: (a, w) :: t
    else if k = a then (k, v) :: t
    else (a, w) :: Table.write t k v

/-- The values `vs` with the keys `k`, `k + 1`, ... -/
def Table.number {α : Type} : Nat → List α → Table α
  | _, [] => []
  | k, v :: vs => (k, v) :: Table.number (k + 1) vs

/-- Write the values `vs` to the cells 0, 1, ..., and leave every later cell unchanged. -/
def Table.writeSpan {α : Type} (t : Table α) (vs : List α) : Table α :=
  Table.number 0 vs ++ t.filter fun c => decide (vs.length ≤ c.1)

/-- Store the low `n` bytes of a word at `off`, little-endian (20_memory.md R51, R55). -/
def Memory.storeBytes : Nat → Memory → Nat → Word → Memory
  | 0, m, _, _ => m
  | n + 1, m, off, v => Memory.storeBytes n (Table.write m off (v.setWidth 8)) (off + 1) (v >>> 8)

/-- The errors of 60_exceptions.md R125. -/
inductive ErrorName where
  | invalidInput
  | invalidTree
  | codeTooLong
  | unknownSymbol
  | illegalCommand
  | sequenceError
  | outputOverflow
  deriving DecidableEq, Repr

/-- The number of an error (60_exceptions.md R125); 0 is success. -/
def errorCode : ErrorName → BitVec 4
  | .invalidInput => 1
  | .invalidTree => 2
  | .codeTooLong => 3
  | .unknownSymbol => 4
  | .illegalCommand => 5
  | .sequenceError => 6
  | .outputOverflow => 7

/-- What `raise E(info, index)` ends a command with (40_command_protocol.md R82). -/
structure CmdError where
  name : ErrorName
  info : Word
  index : Word
  deriving DecidableEq, Repr

/-- How a command can end without success: an error of the spec, or a stop of the model. -/
inductive CmdFail where
  | raised (e : CmdError)
  | stopped (f : Fault)
  deriving DecidableEq, Repr

/-- `raise E(info, index)` with the values as numbers. -/
def raise {α : Type} (name : ErrorName) (info index : Nat) : Except CmdFail α :=
  .error (.raised { name := name, info := BitVec.ofNat 32 info, index := BitVec.ofNat 32 index })

/-- WriteErr(code, info, index) (40_command_protocol.md R84). -/
def State.writeErr (s : State) (code : BitVec 4) (info index : Word) : State :=
  { s with err := code, errInfo := info, errIndex := index }

/-- The end of every completion step: BUSY <- 0, DONE <- 1 (40_command_protocol.md R80). -/
def State.endCommand (s : State) : State := { s with busy := false, done := true }

/-- A command that succeeded, its updates applied: WriteErr(0, 0, 0) and the end of the step. -/
def State.succeed (s : State) : State := (s.writeErr 0 0 0).endCommand

/-- A command that raised an error: nothing but ERR, ERR_INFO, ERR_INDEX, BUSY and DONE changes (40_command_protocol.md
R83). -/
def State.fail (s : State) (e : CmdError) : State := (s.writeErr (errorCode e.name) e.info e.index).endCommand

/-- The completion of a command in state `s` from its result, the state with its updates applied (40_command_protocol.md
R80). -/
def finish (s : State) : Except CmdFail State → Host.Outcome State Fault Refusal
  | .ok t => .next t.succeed
  | .error (.raised e) => .next (s.fail e)
  | .error (.stopped f) => .fault f

/-- The completion of an illegal word: IllegalCommand(w, 0) (40_command_protocol.md R80, 30_encoding.md R68). -/
def completeIllegal (s : State) : Host.Outcome State Fault Refusal :=
  finish s (.error (.raised { name := .illegalCommand, info := s.cmdLatch, index := 0 }))

/-- A command issue (40_command_protocol.md R79). -/
def State.issue (s : State) (w : Word) : State :=
  if s.busy then { s with ovr := true } else { s with cmdLatch := w, busy := true, done := false }

/-- The reset input (70_reset_and_hazards.md R139, R141): every register to its reset value, every array cell to a new draw.
The parameters, and the model's own record of what happens next, of the answer and of the draws made, are kept. -/
def State.onReset (s : State) : State :=
  { State.resetWith s.params (s.resets + 1) with draws := s.draws, inbox := s.inbox, answer := s.answer }

end Sys2Proof.Machine
end

