-- ==== Sys2Proof/Machine/Flags.lean ====
section
/-! DEFINITION. The flags: the STATUS word, its write-one-to-clear bits, and the interrupt wire (10_state.md R22, R41,
60_exceptions.md R128). -/

namespace Sys2Proof.Machine

/-- STATUS.ERROR: 1 exactly when ERR.CODE is not 0 (10_state.md R22). -/
def State.errorFlag (s : State) : Bool := s.err != 0

/-- The interrupt output: irq = STATUS.DONE AND CTRL.IE (10_state.md R41). -/
def State.irq (s : State) : Bool := s.done && s.ie

/-- The STATUS register as HOST reads it, bits 31 to 7 reserved (10_state.md R22). -/
def State.statusWord (s : State) : Word :=
  0#25 ++ BitVec.ofBool s.ovr ++ BitVec.ofBool s.outValid ++ BitVec.ofBool s.codesValid ++ BitVec.ofBool s.treeValid ++
    BitVec.ofBool s.errorFlag ++ BitVec.ofBool s.done ++ BitVec.ofBool s.busy

/-- A HOST write to STATUS: a 1 in bit 1 clears DONE, a 1 in bit 6 clears OVR (10_state.md R22). -/
def State.writeStatus (s : State) (v : Word) : State :=
  { s with done := s.done && !v.getLsbD 1, ovr := s.ovr && !v.getLsbD 6 }

/-- A HOST write to CTRL: IE becomes bit 0 (10_state.md R20). -/
def State.writeCtrl (s : State) (v : Word) : State := { s with ie := v.getLsbD 0 }

end Sys2Proof.Machine
end

