-- ==== Sys2Proof/Machine/Operands.lean ====
section
/-! DEFINITION. Reading the arrays: a cell written since reset has the value written, any other its reset draw (10_state.md
R38). -/

namespace Sys2Proof.Machine

/-- FTAB[i] (10_state.md R32). -/
def State.ftabAt (s : State) (i : Nat) : FreqEntry :=
  { sym := (Table.find s.ftabSym i).getD (Config.resetFtabSym s.resets i)
    cnt := (Table.find s.ftabCnt i).getD (Config.resetFtabCnt s.resets i) }

/-- NODE[i] (10_state.md R33). -/
def State.nodeAt (s : State) (i : Nat) : Node := (Table.find s.node i).getD (Config.resetNode s.resets i)

/-- CTAB[c] (10_state.md R35). -/
def State.ctabAt (s : State) (c : Nat) : CodeEntry := (Table.find s.ctab c).getD (Config.resetCode s.resets c)

/-- SRC[i] (10_state.md R36). -/
def State.srcAt (s : State) (i : Nat) : Byte := (Table.find s.src i).getD (Config.resetSrc s.resets i)

/-- OUT[j] (10_state.md R37). -/
def State.outAt (s : State) (j : Nat) : Byte := (Table.find s.out j).getD (Config.resetOut s.resets j)

/-- The frequency table FTAB[0..n-1], in original input order. -/
def State.ftabList (s : State) (n : Nat) : List FreqEntry := (List.range n).map s.ftabAt

/-- The source bytes SRC[0..SRC_LEN-1], in source order. -/
def State.srcList (s : State) : List Byte := (List.range s.srcLen.toNat).map s.srcAt

/-- CTAB[c].code as a bit string. -/
def State.codeOf (s : State) (c : Nat) : Bits := codeBits (s.ctabAt c)

end Sys2Proof.Machine
end

