-- ==== Sys2Proof/Machine/Bus.lean ====
section
/-! DEFINITION. HOST transactions on the register and window map (20_memory.md). -/

namespace Sys2Proof.Machine

/-- The registers, in the order of their offsets (10_state.md section 2). -/
inductive Reg where
  | id
  | srcCap
  | outCap
  | ctrl
  | cmd
  | status
  | err
  | errInfo
  | errIndex
  | ftabLen
  | srcLen
  | nodeCount
  | rootCntLo
  | rootCntHi
  | hdrBitLen
  | outBitLen
  deriving DecidableEq, Repr

/-- The register at offset 4k (20_memory.md R45). -/
def regAt : Nat → Option Reg
  | 0 => some .id
  | 1 => some .srcCap
  | 2 => some .outCap
  | 3 => some .ctrl
  | 4 => some .cmd
  | 5 => some .status
  | 6 => some .err
  | 7 => some .errInfo
  | 8 => some .errIndex
  | 9 => some .ftabLen
  | 10 => some .srcLen
  | 11 => some .nodeCount
  | 12 => some .rootCntLo
  | 13 => some .rootCntHi
  | 14 => some .hdrBitLen
  | 15 => some .outBitLen
  | _ => none

/-- A location of the map: a register, or a word or byte of a window (20_memory.md R45). -/
inductive Loc where
  | reg (r : Reg)
  /-- The symbol word of FTAB[i]. -/
  | ftabSymWord (i : Nat)
  /-- The count word of FTAB[i]. -/
  | ftabCntWord (i : Nat)
  /-- Word k of NODE[i]. -/
  | nodeWord (i k : Nat)
  /-- Word k of CTAB[c]. -/
  | ctabWord (c k : Nat)
  /-- SRC from byte i on. -/
  | srcByte (i : Nat)
  /-- OUT from byte j on. -/
  | outByte (j : Nat)
  deriving DecidableEq, Repr

/-- Where the SRC window begins (20_memory.md R45). -/
def srcBase : Nat := 0x01000000

/-- Where the OUT window begins (20_memory.md R45). -/
def outBase : Nat := 0x02000000

/-- The location of a word-only region at byte address `a` (20_memory.md R45, R48). -/
def wordLoc (a : Nat) : Option Loc :=
  if a < 0x40 then (regAt (a / 4)).map .reg
  else if 0x1000 ≤ a ∧ a < 0x1800 then
    let o := a - 0x1000
    some (if o % 8 = 0 then .ftabSymWord (o / 8) else .ftabCntWord (o / 8))
  else if 0x2000 ≤ a ∧ a < 0x3FF0 then some (.nodeWord ((a - 0x2000) / 16) ((a - 0x2000) % 16 / 4))
  else if 0x4000 ≤ a ∧ a < 0x8000 then some (.ctabWord ((a - 0x4000) / 64) ((a - 0x4000) % 64 / 4))
  else none

/-- The location of a byte region at byte address `a` for `n` bytes, all of them mapped (20_memory.md R45, R49). -/
def byteLoc (p : Config.Params) (a n : Nat) : Option Loc :=
  if srcBase ≤ a ∧ a + n ≤ srcBase + p.maxSrcLen then some (.srcByte (a - srcBase))
  else if outBase ≤ a ∧ a + n ≤ outBase + p.outCapBytes then some (.outByte (a - outBase))
  else none

/-- What a transaction of size `n` at `addr` reaches; none where it gets the ERROR response (20_memory.md R45 to R49). -/
def locate (p : Config.Params) (addr : Word) (n : BusSize) : Option Loc :=
  if addr.toNat % sizeBytes n ≠ 0 then none
  else if addr.toNat < 0x8000 then if n = .b4 then wordLoc addr.toNat else none
  else byteLoc p addr.toNat (sizeBytes n)

/-- A result area: its reads are unspecified while BUSY = 1 (20_memory.md R53). -/
def isResultArea : Loc → Bool
  | .reg .nodeCount => true
  | .reg .rootCntLo => true
  | .reg .rootCntHi => true
  | .reg .hdrBitLen => true
  | .reg .outBitLen => true
  | .reg _ => false
  | .ftabSymWord _ => false
  | .ftabCntWord _ => false
  | .nodeWord _ _ => true
  | .ctabWord _ _ => true
  | .srcByte _ => false
  | .outByte _ => true

/-- The constant of the ID register, ASCII "HUFF" (10_state.md R17). -/
def idWord : Word := 0x48554646

/-- A register as HOST reads it, reserved bits 0 (10_state.md R17 to R31). -/
def State.readReg (s : State) : Reg → Word
  | .id => idWord
  | .srcCap => BitVec.ofNat 32 s.params.maxSrcLen
  | .outCap => BitVec.ofNat 32 s.params.outCapBytes
  | .ctrl => 0#31 ++ BitVec.ofBool s.ie
  | .cmd => 0
  | .status => s.statusWord
  | .err => s.err.setWidth 32
  | .errInfo => s.errInfo
  | .errIndex => s.errIndex
  | .ftabLen => s.ftabLen.setWidth 32
  | .srcLen => s.srcLen
  | .nodeCount => s.nodeCount.setWidth 32
  | .rootCntLo => s.rootCntLo
  | .rootCntHi => s.rootCntHi.setWidth 32
  | .hdrBitLen => s.hdrBitLen.setWidth 32
  | .outBitLen => s.outBitLen

/-- Word k of a NODE entry (30_encoding.md R71). -/
def nodeWordOf (nd : Node) : Nat → Word
  | 0 => nd.cnt.setWidth 32
  | 1 => (nd.cnt.extractLsb' 32 8).setWidth 32
  | 2 => BitVec.ofBool nd.lp ++ BitVec.ofBool nd.rp ++ 0#5 ++ nd.right ++ 0#7 ++ nd.left
  | 3 => BitVec.ofBool nd.hs ++ 0#23 ++ nd.sym
  | _ => 0

/-- The code field of a CTAB entry with every bit from `len` on 0 (30_encoding.md R72). -/
def maskedCode (e : CodeEntry) : BitVec 256 := e.code &&& (BitVec.allOnes 256 <<< (256 - e.len.toNat))

/-- Word k of a CTAB entry (30_encoding.md R72): word 0 is valid and len, words 1 to 8 the code bits, first bit in bit 31
of word 1, words 9 to 15 reserved. -/
def ctabWordOf (e : CodeEntry) : Nat → Word
  | 0 => BitVec.ofBool e.valid ++ 0#23 ++ e.len
  | k + 1 => if k < 8 then (maskedCode e).extractLsb' (224 - 32 * k) 32 else 0

/-- What an OKAY read of a location of `n` bytes returns while the location may be read (20_memory.md R50). -/
def State.readLoc (s : State) (n : BusSize) : Loc → Word
  | .reg r => s.readReg r
  | .ftabSymWord i => (s.ftabAt i).sym.setWidth 32
  | .ftabCntWord i => (s.ftabAt i).cnt
  | .nodeWord i k => nodeWordOf (s.nodeAt i) k
  | .ctabWord c k => ctabWordOf (s.ctabAt c) k
  | .srcByte i => leWord s.srcAt (sizeBytes n) i
  | .outByte j => leWord s.outAt (sizeBytes n) j

/-- The answer to a read (20_memory.md R46). -/
def State.answerRead (s : State) (r : BusResponse) (data : Word) : State :=
  { s with answer := some (.readAnswer r data) }

/-- The answer to a write (20_memory.md R46). -/
def State.answerWrite (s : State) (r : BusResponse) : State := { s with answer := some (.writeAnswer r) }

/-- A read answered with an unspecified value, one draw per read, in the n bytes the transaction carries (20_memory.md R50,
R53). -/
def State.readDraw (s : State) (n : BusSize) : State :=
  { s.answerRead .okay (lowBytes n (Config.busyRead s.draws)) with draws := s.draws + 1 }

/-- MemRead(addr, n) (20_memory.md R49, R50, R53). -/
def State.memRead (s : State) (addr : Word) (n : BusSize) : State :=
  match locate s.params addr n with
  | none => s.answerRead .error 0
  | some l =>
    if s.busy && isResultArea l then s.readDraw n
    else s.answerRead .okay (s.readLoc n l)

/-- A write to a location HOST may not write while BUSY = 1: it is dropped and sets OVR then (20_memory.md R52). -/
def State.storeUnlessBusy (s t : State) : State := if s.busy then { s with ovr := true } else t

/-- An OKAY write of `v` to a register (20_memory.md R51, R52, 10_state.md R17 to R31). -/
def State.writeReg (s : State) (v : Word) : Reg → State
  | .id => s
  | .srcCap => s
  | .outCap => s
  | .ctrl => s.writeCtrl v
  | .cmd => s.issue v
  | .status => s.writeStatus v
  | .err => s
  | .errInfo => s
  | .errIndex => s
  | .ftabLen => s.storeUnlessBusy { s with ftabLen := v.setWidth 9 }
  | .srcLen => s.storeUnlessBusy { s with srcLen := v }
  | .nodeCount => s
  | .rootCntLo => s
  | .rootCntHi => s
  | .hdrBitLen => s
  | .outBitLen => s

/-- An OKAY write of `v` to a location of `n` bytes (20_memory.md R51, R52): the NODE, CTAB and OUT windows ignore it. -/
def State.writeLoc (s : State) (n : BusSize) (v : Word) : Loc → State
  | .reg r => s.writeReg v r
  | .ftabSymWord i => s.storeUnlessBusy { s with ftabSym := Table.write s.ftabSym i (v.setWidth 8) }
  | .ftabCntWord i => s.storeUnlessBusy { s with ftabCnt := Table.write s.ftabCnt i v }
  | .nodeWord _ _ => s
  | .ctabWord _ _ => s
  | .srcByte i => s.storeUnlessBusy { s with src := Memory.storeBytes (sizeBytes n) s.src i v }
  | .outByte _ => s

/-- MemWrite(addr, n, v) (20_memory.md R49, R51, R52). -/
def State.memWrite (s : State) (addr : Word) (n : BusSize) (v : Word) : State :=
  match locate s.params addr n with
  | none => s.answerWrite .error
  | some l => (s.writeLoc n v l).answerWrite .okay

end Sys2Proof.Machine
end

