-- ==== Sys2Proof/Machine/BuildCodes.lean ====
section
/-! DEFINITION. BUILD_CODES, the codeword derivation engine (42_code_assigner.md). -/

namespace Sys2Proof.Machine

/-- Symbols with their codewords, the one recorded last first. -/
abbrev CodeList := List (Byte × Bits)

/-- The depth no traversal that ends goes beyond: a path of more nodes than NODE has repeats one, and a repeated path that
leaves a leaf behind on its left raises CodeTooLong before it is `maxCodeLen` bits longer (log 9). -/
def visitFuel : Nat := Config.maxNodes + Config.maxCodeLen + 2

/-- Visit(i, p) of 42_code_assigner.md R102, the table so far in `acc`. `fuel` bounds the depth: where `visitFuel` runs out,
the traversal never ends (log 9). -/
def visit (s : State) : Nat → Nat → Bits → CodeList → Except CmdFail CodeList
  | 0, _, _, _ => .error (.stopped .traversalNeverEnds)
  | fuel + 1, i, p, acc =>
    if i ≥ Config.maxNodes then .error (.stopped .nodeIndexOutOfRange)
    else
      let nd := s.nodeAt i
      if nd.lp != nd.rp then raise .invalidTree 0 i
      else if nd.lp = false then
        if nd.hs = false then raise .invalidTree 0 i
        else if p.length > Config.maxCodeLen then raise .codeTooLong nd.sym.toNat i
        else .ok ((nd.sym, p) :: acc)
      else
        match visit s fuel nd.left.toNat (p ++ [false]) acc with
        | .error e => .error e
        | .ok acc₁ => visit s fuel nd.right.toNat (p ++ [true]) acc₁

/-- The codewords of the tree whose root is `r` (42_code_assigner.md R102): a lone leaf gets "0" (R105), any other root is
visited with the empty path (R104). -/
def assignCodes (s : State) (r : Nat) : Except CmdFail CodeList :=
  let nd := s.nodeAt r
  if nd.lp = false ∧ nd.rp = false then
    if nd.hs = false then raise .invalidTree 0 r else .ok [(nd.sym, [false])]
  else visit s visitFuel r [] []

/-- The codeword recorded for a symbol, the last one where there are several. -/
def codeFor : CodeList → Byte → Option Bits
  | [], _ => none
  | (c, p) :: rest, b => if c = b then some p else codeFor rest b

/-- The CTAB entry of a symbol (42_code_assigner.md R108). -/
def entryFor (codes : CodeList) (c : Nat) : CodeEntry :=
  match codeFor codes (BitVec.ofNat 8 c) with
  | some p => validEntry p
  | none => absentEntry

/-- What BUILD_CODES writes to CTAB: all 256 entries (42_code_assigner.md R108). -/
def ctabImage (codes : CodeList) : List CodeEntry := (List.range Config.numSymbols).map (entryFor codes)

/-- BuildCodes() of 42_code_assigner.md R102, up to the end of the completion step. The root of an empty tree does not exist
(log 8). -/
def buildCodes (s : State) : Except CmdFail State :=
  if s.treeValid = false then raise .sequenceError 1 0
  else if s.nodeCount = 0 then .error (.stopped .nodeIndexOutOfRange)
  else
    match assignCodes s (s.nodeCount.toNat - 1) with
    | .error e => .error e
    | .ok codes =>
      .ok { s with
        ctab := Table.writeSpan s.ctab (ctabImage codes)
        codesValid := true
        treeValid := false }

/-- BUILD_CODES (42_code_assigner.md R102). -/
def execBuildCodes (s : State) : Host.Outcome State Fault Refusal := finish s (buildCodes s)

end Sys2Proof.Machine
end

