-- ==== Sys2Proof/Machine/BuildTree.lean ====
section
/-! DEFINITION. BUILD_TREE, the Huffman tree builder (41_tree_builder.md). -/

namespace Sys2Proof.Machine

/-- The scan of 41_tree_builder.md R92 from entry `i` on; `seen` are the symbols of the entries before it. -/
def scanEntries (i : Nat) (seen : List Byte) : List FreqEntry → Except CmdFail Unit
  | [] => .ok ()
  | e :: es =>
    if e.cnt = 0 then raise .invalidInput 3 i
    else if e.sym ∈ seen then raise .invalidInput 4 i
    else scanEntries (i + 1) (e.sym :: seen) es

/-- Validate(n) of 41_tree_builder.md R92. -/
def validateTable (s : State) (n : Nat) : Except CmdFail Unit :=
  if n = 0 then raise .invalidInput 1 0
  else if n > Config.maxEntries then raise .invalidInput 2 0
  else scanEntries 0 [] (s.ftabList n)

/-- A node entry with every field 0 (41_tree_builder.md R99). -/
def zeroNode : Node := { cnt := 0, lp := false, left := 0, rp := false, right := 0, hs := false, sym := 0 }

/-- The leaf of a frequency entry (41_tree_builder.md R93). -/
def leafOf (e : FreqEntry) : Node :=
  { zeroNode with cnt := e.cnt.setWidth 40, hs := true, sym := e.sym }

/-- A member of the working collection: a node's index and count (41_tree_builder.md R94). -/
structure WorkItem where
  idx : Nat
  cnt : BitVec 40
  deriving DecidableEq, Repr

/-- The order of the working collection: the pair (cnt, index), lexicographic (41_tree_builder.md R94). -/
def keyLess (x y : WorkItem) : Bool := x.cnt < y.cnt || (x.cnt == y.cnt && decide (x.idx < y.idx))

/-- The member with the smallest key, and the collection without it (41_tree_builder.md R94). -/
def takeMin : List WorkItem → Option (WorkItem × List WorkItem)
  | [] => none
  | x :: xs =>
    match takeMin xs with
    | none => some (x, [])
    | some (m, rest) => if keyLess m x then some (m, x :: rest) else some (x, xs)

/-- The internal node of a merge: first removed left, second removed right, the counts added in 40 bits
(41_tree_builder.md R95, R96). -/
def mergeNode (a b : WorkItem) : Node :=
  { zeroNode with
    cnt := a.cnt + b.cnt
    lp := true
    left := BitVec.ofNat 9 a.idx
    rp := true
    right := BitVec.ofNat 9 b.idx }

/-- The merge loop of 41_tree_builder.md R91: `nodes` are the nodes made so far, `work` is the working collection; it ends
when fewer than two members remain. Each round removes one member, so `fuel` rounds suffice where `work` has at most
`fuel` members. -/
def mergeLoop : Nat → List Node → List WorkItem → List Node
  | 0, nodes, _ => nodes
  | fuel + 1, nodes, work =>
    match takeMin work with
    | none => nodes
    | some (a, work₁) =>
      match takeMin work₁ with
      | none => nodes
      | some (b, work₂) =>
        mergeLoop fuel (nodes ++ [mergeNode a b]) ({ idx := nodes.length, cnt := a.cnt + b.cnt } :: work₂)

/-- The leaves as the first working collection, from index `i` on (41_tree_builder.md R91). -/
def leafItems (i : Nat) : List FreqEntry → List WorkItem
  | [] => []
  | e :: es => { idx := i, cnt := e.cnt.setWidth 40 } :: leafItems (i + 1) es

/-- The nodes of the tree of a frequency table, in index order (41_tree_builder.md R93 to R97). -/
def huffmanNodes (es : List FreqEntry) : List Node := mergeLoop es.length (es.map leafOf) (leafItems 0 es)

/-- What BUILD_TREE writes to NODE: the tree, and zeros from 2n-1 to 510 (41_tree_builder.md R99). -/
def nodeImage (nodes : List Node) : List Node := (List.range Config.maxNodes).map fun i => nodes.getD i zeroNode

/-- BuildTree() of 41_tree_builder.md R91, up to the end of the completion step. -/
def buildTree (s : State) : Except CmdFail State :=
  let n := s.ftabLen.toNat
  match validateTable s n with
  | .error e => .error e
  | .ok () =>
    let nodes := huffmanNodes (s.ftabList n)
    let root := nodes.getD (2 * n - 2) zeroNode
    .ok { s with
      node := Table.writeSpan s.node (nodeImage nodes)
      nodeCount := BitVec.ofNat 9 (2 * n - 1)
      rootCntLo := root.cnt.setWidth 32
      rootCntHi := root.cnt.extractLsb' 32 8
      treeValid := true
      codesValid := false }

/-- BUILD_TREE (41_tree_builder.md R91). -/
def execBuildTree (s : State) : Host.Outcome State Fault Refusal := finish s (buildTree s)

end Sys2Proof.Machine
end

