-- ==== Sys2Proof/Machine/Encode.lean ====
section
/-! DEFINITION. ENCODE, the bitstream header and payload encoder (43_bitstream_encoder.md). -/

namespace Sys2Proof.Machine

/-- The scan of 43_bitstream_encoder.md R113 (3) from source byte `i` on. -/
def scanSource (s : State) (i : Nat) : List Byte → Except CmdFail Unit
  | [] => .ok ()
  | b :: bs =>
    if (s.ctabAt b.toNat).valid then scanSource s (i + 1) bs
    else raise .unknownSymbol b.toNat i

/-- The header entry of symbol `c`, empty for a symbol with no codeword (30_encoding.md R75). -/
def headerEntry (s : State) (c : Nat) : Bits :=
  let e := s.ctabAt c
  if e.valid then msbBits 8 e.len.toNat ++ msbBits 8 c ++ codeBits e else []

/-- The header: the entries in ascending symbol order (43_bitstream_encoder.md R114). -/
def headerBits (s : State) : Bits := (List.range Config.numSymbols).flatMap (headerEntry s)

/-- The payload: the codewords of the source bytes in source order (43_bitstream_encoder.md R117). -/
def payloadBits (s : State) : Bits := s.srcList.flatMap fun b => s.codeOf b.toNat

/-- The stream S = msb_16(HB) ++ H ++ P (43_bitstream_encoder.md R118). -/
def streamBits (s : State) : Bits := msbBits 16 (headerBits s).length ++ headerBits s ++ payloadBits s

/-- ceil(T / 8) (43_bitstream_encoder.md R112). -/
def byteCount (bits : Nat) : Nat := (bits + 7) / 8

/-- The bytes of the packed stream (43_bitstream_encoder.md R120). -/
def packBytes (b : Bits) : List Byte := (List.range (byteCount b.length)).map (packByte b)

/-- Encode() of 43_bitstream_encoder.md R112, up to the end of the completion step. -/
def encodeSource (s : State) : Except CmdFail State :=
  if s.codesValid = false then raise .sequenceError 2 0
  else if s.srcLen.toNat > s.params.maxSrcLen then raise .invalidInput 5 0
  else
    match scanSource s 0 s.srcList with
    | .error e => .error e
    | .ok () =>
      let stream := streamBits s
      if byteCount stream.length > s.params.outCapBytes then raise .outputOverflow stream.length 0
      else
        .ok { s with
          out := Table.writeSpan s.out (packBytes stream)
          hdrBitLen := BitVec.ofNat 16 (headerBits s).length
          outBitLen := BitVec.ofNat 32 stream.length
          outValid := true }

/-- ENCODE (43_bitstream_encoder.md R112). -/
def execEncode (s : State) : Host.Outcome State Fault Refusal := finish s (encodeSource s)

end Sys2Proof.Machine
end

