-- ==== Sys2Proof/Machine/Engine.lean ====
section
/-! DEFINITION. The completion step of ENGINE and what each event does (40_command_protocol.md R80, 00_scope.md R14). -/

namespace Sys2Proof.Machine

/-- EngineComplete() of 40_command_protocol.md R80: the command in CMD_LATCH, whole. -/
def engineComplete (s : State) : Host.Outcome State Fault Refusal :=
  match decode s.cmdLatch with
  | .ok i => exec i s
  | .error _ => completeIllegal s

/-- The turn of ENGINE: the completion step where it is enabled, that is while BUSY = 1; nothing otherwise
(40_command_protocol.md R80). -/
def engineTurn (s : State) : Host.Outcome State Fault Refusal :=
  if s.busy then engineComplete s else .next s

/-- What an event does (00_scope.md R14). -/
def runEvent (s : State) : Event → Host.Outcome State Fault Refusal
  | .hostRead addr n => .next (s.memRead addr n)
  | .hostWrite addr n v => .next (s.memWrite addr n v)
  | .engineStep => engineTurn s
  | .resetInput => .next s.onReset

/-- What happens where the outside world gives no event: ENGINE completes the command in progress (weak fairness,
40_command_protocol.md R85), an idle block waits (70_reset_and_hazards.md R142). -/
def quietTurn (s : State) : Host.Outcome State Fault Refusal := engineTurn s

/-- The block with the word `w` issued and its completion step next: the state after an accepted issue
(40_command_protocol.md R79), with ENGINE's turn before any event still waiting. -/
def State.withCommand (s : State) (w : Word) : State :=
  { s with
    cmdLatch := w
    busy := true
    done := false
    inbox := if s.inbox = [] then [] else .engineStep :: s.inbox }

end Sys2Proof.Machine
end

