-- ==== Sys2Proof/Safety.lean ====
section
/-! DEFINITION. What the claims about the block are stated in: the accesses the bus accepts, the tree that a node store
holds, the codewords of a tree, the parse of a header, and the invariant every step keeps. -/

namespace Sys2Proof.Safety

open Sys2Proof.Machine

/-! ### The bus -/

/-- The accesses that get the OKAY response, from the map of 20_memory.md R45 and R47 to R49. -/
abbrev busAccepts (p : Config.Params) (a n : Nat) : Prop :=
  a % n = 0 ∧
  ((n = 4 ∧ (a < 0x40 ∨ (0x1000 ≤ a ∧ a < 0x1800) ∨ (0x2000 ≤ a ∧ a < 0x3FF0) ∨ (0x4000 ≤ a ∧ a < 0x8000))) ∨
    (0x01000000 ≤ a ∧ a + n ≤ 0x01000000 + p.maxSrcLen) ∨
    (0x02000000 ≤ a ∧ a + n ≤ 0x02000000 + p.outCapBytes))

/-- An event of HOST: a bus transaction. -/
def isHostEvent : Event → Bool
  | .hostRead _ _ => true
  | .hostWrite _ _ _ => true
  | .engineStep => false
  | .resetInput => false

/-- The registers HOST reads at any time, with their offsets (10_state.md R17 to R27). -/
def openRegisters (s : State) : List (Word × Word) :=
  [(0x000, 0x48554646),
   (0x004, BitVec.ofNat 32 s.params.maxSrcLen),
   (0x008, BitVec.ofNat 32 s.params.outCapBytes),
   (0x00C, BitVec.ofNat 32 s.ie.toNat),
   (0x010, 0),
   (0x014, BitVec.ofNat 32 (s.busy.toNat + 2 * s.done.toNat + 4 * (decide (s.err ≠ 0)).toNat + 8 * s.treeValid.toNat +
      16 * s.codesValid.toNat + 32 * s.outValid.toNat + 64 * s.ovr.toNat)),
   (0x018, BitVec.ofNat 32 s.err.toNat),
   (0x01C, s.errInfo),
   (0x020, s.errIndex),
   (0x024, BitVec.ofNat 32 s.ftabLen.toNat),
   (0x028, s.srcLen)]

/-- The registers HOST reads while idle, with their offsets (10_state.md R28 to R31). -/
def resultRegisters (s : State) : List (Word × Word) :=
  [(0x02C, BitVec.ofNat 32 s.nodeCount.toNat),
   (0x030, s.rootCntLo),
   (0x034, BitVec.ofNat 32 s.rootCntHi.toNat),
   (0x038, BitVec.ofNat 32 s.hdrBitLen.toNat),
   (0x03C, s.outBitLen)]

/-- The state of a block with parameters `p` right after a reset, as the table of 70_reset_and_hazards.md R140 gives it. An
array cell is unspecified there: no claim says what it holds, only that it is its draw (log 5). -/
def HoldsResetValues (s : State) (p : Config.Params) : Prop :=
  s.readReg .id = 0x48554646 ∧ s.params = p ∧
  s.readReg .srcCap = BitVec.ofNat 32 p.maxSrcLen ∧ s.readReg .outCap = BitVec.ofNat 32 p.outCapBytes ∧
  s.ie = false ∧ s.busy = false ∧ s.done = false ∧ s.errorFlag = false ∧ s.treeValid = false ∧ s.codesValid = false ∧
  s.outValid = false ∧ s.ovr = false ∧ s.err = 0 ∧ s.errInfo = 0 ∧ s.errIndex = 0 ∧ s.ftabLen = 0 ∧ s.srcLen = 0 ∧
  s.nodeCount = 0 ∧ s.rootCntLo = 0 ∧ s.rootCntHi = 0 ∧ s.hdrBitLen = 0 ∧ s.outBitLen = 0 ∧ s.cmdLatch = 0 ∧
  (∀ i, s.ftabAt i = { sym := Config.resetFtabSym s.resets i, cnt := Config.resetFtabCnt s.resets i } ∧
    s.nodeAt i = Config.resetNode s.resets i ∧ s.ctabAt i = Config.resetCode s.resets i ∧
    s.srcAt i = Config.resetSrc s.resets i ∧ s.outAt i = Config.resetOut s.resets i) ∧
  s.irq = false

/-! ### Trees -/

/-- A Huffman tree as data: leaves with their symbol and count, internal nodes with two children (10_state.md R34). -/
inductive HTree where
  | leaf (sym : Byte) (cnt : Nat)
  | node (l r : HTree)
  deriving DecidableEq, Repr

/-- The count of the root: the sum of the leaves' counts. -/
def weight : HTree → Nat
  | .leaf _ c => c
  | .node l r => weight l + weight r

/-- The symbols of the leaves, from left to right. -/
def symbols : HTree → List Byte
  | .leaf b _ => [b]
  | .node l r => symbols l ++ symbols r

/-- The number of nodes. -/
def size : HTree → Nat
  | .leaf _ _ => 1
  | .node l r => size l + size r + 1

/-- The path from the root to the leaf of a symbol, false for left and true for right (42_code_assigner.md R104). -/
def pathTo : HTree → Byte → Option Bits
  | .leaf b _, c => if b = c then some [] else none
  | .node l r, c =>
    match pathTo l c with
    | some p => some (false :: p)
    | none => (pathTo r c).map (true :: ·)

/-- The codeword of a symbol: its path, or "0" where the tree is a lone leaf (42_code_assigner.md R104, R105). -/
def codeword : HTree → Byte → Option Bits
  | .leaf b _, c => if b = c then some [false] else none
  | .node l r, c => pathTo (.node l r) c

/-- The CTAB entry the tree gives a symbol (42_code_assigner.md R108). -/
def treeEntry (t : HTree) (c : Byte) : CodeEntry :=
  match codeword t c with
  | some p => validEntry p
  | none => absentEntry

/-- The node at index `i` of a store, and its descendants, are the tree `t`, in the form of 10_state.md R34: an internal
node has lp = rp = 1, hs = 0, sym = 0, the count of its subtree, and children at smaller indices; a leaf has hs = 1 and
left = right = 0. -/
def HoldsTree (nodes : Nat → Node) : HTree → Nat → Prop
  | .leaf b c, i =>
    nodes i = { cnt := BitVec.ofNat 40 c, lp := false, left := 0, rp := false, right := 0, hs := true, sym := b } ∧ c < 2 ^ 40
  | .node l r, i =>
    ∃ x y : BitVec 9, x.toNat < i ∧ y.toNat < i ∧ weight l + weight r < 2 ^ 40 ∧
      nodes i = { cnt := BitVec.ofNat 40 (weight l + weight r), lp := true, left := x, rp := true, right := y, hs := false, sym := 0 } ∧
      HoldsTree nodes l x.toNat ∧ HoldsTree nodes r y.toNat

/-- The block holds the tree `t`: NODE_COUNT is its size, the root is the last node, its symbols are distinct, and ROOT_CNT
is its count (41_tree_builder.md R98, R99, 10_state.md R29). -/
def BlockHoldsTree (s : State) (t : HTree) : Prop :=
  size t = s.nodeCount.toNat ∧ HoldsTree s.nodeAt t (s.nodeCount.toNat - 1) ∧ (symbols t).Nodup ∧
  s.rootCntHi.toNat * 2 ^ 32 + s.rootCntLo.toNat = weight t

/-- CTAB is the code table of the tree `t`, whose symbols are distinct (42_code_assigner.md R108). -/
def BlockHoldsCodes (s : State) (t : HTree) : Prop :=
  (symbols t).Nodup ∧ ∀ c : Byte, s.ctabAt c.toNat = treeEntry t c

/-- Node `i` is in the working collection at merge `k` of a table of `n` entries: it exists by then and no earlier merge has
removed it (41_tree_builder.md R95). -/
def InWork (nodes : Nat → Node) (n k i : Nat) : Prop :=
  i < n + k ∧ ∀ j, j < k → (nodes (n + j)).left.toNat ≠ i ∧ (nodes (n + j)).right.toNat ≠ i

/-- The order of the working collection, smallest first (41_tree_builder.md R94). -/
def KeyBelow (nodes : Nat → Node) (i j : Nat) : Prop :=
  (nodes i).cnt.toNat < (nodes j).cnt.toNat ∨ ((nodes i).cnt.toNat = (nodes j).cnt.toNat ∧ i < j)

/-- Node n + k is what merge `k` makes (41_tree_builder.md R94, R95): its left child is the member of the working collection
with the smallest (cnt, index), its right child the next, and its count is their sum. -/
def MergedAt (nodes : Nat → Node) (n k : Nat) : Prop :=
  (nodes (n + k)).lp = true ∧ (nodes (n + k)).rp = true ∧ (nodes (n + k)).hs = false ∧ (nodes (n + k)).sym = 0 ∧
  (nodes (n + k)).cnt.toNat =
    (nodes (nodes (n + k)).left.toNat).cnt.toNat + (nodes (nodes (n + k)).right.toNat).cnt.toNat ∧
  InWork nodes n k (nodes (n + k)).left.toNat ∧ InWork nodes n k (nodes (n + k)).right.toNat ∧
  KeyBelow nodes (nodes (n + k)).left.toNat (nodes (n + k)).right.toNat ∧
  ∀ c, InWork nodes n k c → c ≠ (nodes (n + k)).left.toNat → c ≠ (nodes (n + k)).right.toNat →
    KeyBelow nodes (nodes (n + k)).right.toNat c

/-! ### The stream -/

/-- The header of 43_bitstream_encoder.md R114 and 30_encoding.md R75. -/
def specHeader (s : State) : Bits :=
  (List.range 256).flatMap fun c =>
    if (s.ctabAt c).valid then msbBits 8 (s.ctabAt c).len.toNat ++ msbBits 8 c ++ s.codeOf c else []

/-- The payload of 43_bitstream_encoder.md R117. -/
def specPayload (s : State) : Bits :=
  (List.range s.srcLen.toNat).flatMap fun i => s.codeOf (s.srcAt i).toNat

/-- The stream of 43_bitstream_encoder.md R118. -/
def specStream (s : State) : Bits := msbBits 16 (specHeader s).length ++ specHeader s ++ specPayload s

/-- ENCODE passes its checks (43_bitstream_encoder.md R113). -/
def EncodeReady (s : State) : Prop :=
  s.codesValid = true ∧ s.srcLen.toNat ≤ s.params.maxSrcLen ∧
  ∀ i, i < s.srcLen.toNat → (s.ctabAt (s.srcAt i).toNat).valid = true

/-! ### The header, parsed -/

/-- The number whose bits, most significant first, are `b` (00_scope.md R12). -/
def bitsValue : Bits → Nat := List.foldl (fun v b => 2 * v + b.toNat) 0

/-- The parse of 43_bitstream_encoder.md R122: while fewer than `hb` header bits are consumed, take 8 bits of length, 8 bits
of symbol and that many bits of codeword. The result is the records and the number of bits consumed. `fuel` bounds the
number of records. -/
def parseEntries : Nat → Nat → Nat → Bits → List (Nat × Bits) × Nat
  | 0, _, used, _ => ([], used)
  | fuel + 1, hb, used, b =>
    if used < hb then
      let len := bitsValue (b.take 8)
      let sym := bitsValue ((b.drop 8).take 8)
      let code := (b.drop 16).take len
      let rest := parseEntries fuel hb (used + 16 + len) (b.drop (16 + len))
      ((sym, code) :: rest.1, rest.2)
    else ([], used)

/-- The parse of a stream: the header length in the first 16 bits, then the entries (43_bitstream_encoder.md R122). -/
def parseHeader (b : Bits) : List (Nat × Bits) × Nat :=
  let hb := bitsValue (b.take 16)
  parseEntries (hb + 1) hb 0 (b.drop 16)

/-- The pairs (s, CTAB[s].code) with CTAB[s].valid = 1, in ascending s. -/
def codePairs (s : State) : List (Nat × Bits) :=
  (List.range 256).filterMap fun c => if (s.ctabAt c).valid then some (c, s.codeOf c) else none

/-! ### The frequency table -/

/-- The table BUILD_TREE accepts: 1 to 256 entries, positive counts, distinct symbols (41_tree_builder.md R92). -/
def TableValid (s : State) : Prop :=
  1 ≤ s.ftabLen.toNat ∧ s.ftabLen.toNat ≤ 256 ∧
  (∀ i, i < s.ftabLen.toNat → (s.ftabAt i).cnt ≠ 0) ∧
  (∀ i j, i < j → j < s.ftabLen.toNat → (s.ftabAt i).sym ≠ (s.ftabAt j).sym)

/-! ### The invariant -/

/-- Every array is in its canonical form and within its size (10_state.md R32 to R37). -/
def TablesOk (s : State) : Prop :=
  (Table.wf s.ftabSym ∧ Table.below s.ftabSym 256) ∧ (Table.wf s.ftabCnt ∧ Table.below s.ftabCnt 256) ∧
  (Table.wf s.node ∧ Table.below s.node 511) ∧ (Table.wf s.ctab ∧ Table.below s.ctab 256) ∧
  (Memory.wf s.src ∧ Table.below s.src s.params.maxSrcLen) ∧ (Memory.wf s.out ∧ Table.below s.out s.params.outCapBytes)

/-- The error registers hold a code of 60_exceptions.md R125, and (0, 0, 0) where the last command succeeded. -/
def ErrorOk (s : State) : Prop := s.err.toNat ≤ 7 ∧ (s.err = 0 → s.errInfo = 0 ∧ s.errIndex = 0)

/-- TREE_VALID and CODES_VALID are never 1 together (40_command_protocol.md R87). -/
def FlagsOk (s : State) : Prop := ¬(s.treeValid = true ∧ s.codesValid = true)

/-- NODE holds a tree whenever one was built since reset, and it was built if it is valid (10_state.md R33, R34). -/
def TreeOk (s : State) : Prop :=
  (s.nodeCount ≠ 0 → ∃ t, BlockHoldsTree s t) ∧ (s.treeValid = true → s.nodeCount ≠ 0)

/-- CTAB holds the code table of a tree while CODES_VALID = 1 (10_state.md R35). -/
def CodesOk (s : State) : Prop := s.codesValid = true → ∃ t, BlockHoldsCodes s t

/-- OUT_BITLEN counts the length field and the header, and the stream fits OUT (43_bitstream_encoder.md R118, R119). -/
def OutOk (s : State) : Prop :=
  s.outValid = true →
    16 + s.hdrBitLen.toNat ≤ s.outBitLen.toNat ∧ byteCount s.outBitLen.toNat ≤ s.params.outCapBytes

/-- The invariant of the block. -/
structure Inv (s : State) : Prop where
  params : paramsWellFormed s.params
  tables : TablesOk s
  error : ErrorOk s
  flags : FlagsOk s
  tree : TreeOk s
  codes : CodesOk s
  out : OutOk s

end Sys2Proof.Safety
end

