-- ==== Sys2Proof/Certificates/Slice0/Obligations.lean ====
section
/-! DEFINITION. The obligations: claims about the block, each formalising rules of spec/. -/

open Sys2Proof Sys2Proof.Machine Sys2Proof.Safety

/-! ### The command word -/

/-- 40_command_protocol.md R81: Decode(w) on every 32-bit word. -/
def Obligations.DecodeAcceptsExactlyThreeWords : Prop :=
  ∀ w : Word, (decode w).toOption =
    if w = 0x00000001 then some .buildTree
    else if w = 0x00000002 then some .buildCodes
    else if w = 0x00000003 then some .encode
    else none

/-- 30_encoding.md R66, R67: the encoder's words are the well-formed words, and decoding inverts it on both sides. -/
def Obligations.DecodeAndEncodeAgree : Prop :=
  (∀ i : Instr, decode (encode i) = .ok i ∧ cmdWellFormed (encode i) = true) ∧
  (∀ (w : Word) (i : Instr), decode w = .ok i → encode i = w) ∧
  (∀ w : Word, cmdWellFormed w = true ↔ ∃ i, decode w = .ok i)

/-- Words written out from 30_encoding.md R67 and the vectors V-CP-1 to V-CP-4 of 95_test_vectors.md. -/
def Obligations.CommandWordSanity : Prop :=
  decode 0b00000000000000000000000000000001 = .ok .buildTree ∧
  decode 0b00000000000000000000000000000010 = .ok .buildCodes ∧
  decode 0b00000000000000000000000000000011 = .ok .encode ∧
  decode 0x00000000 = .error .noSuchOp ∧
  decode 0x00000004 = .error .noSuchOp ∧
  decode 0x00000011 = .error .mbzNotZero ∧
  decode 0xFFFFFFFF = .error .mbzNotZero

/-! ### Issue, completion, errors -/

/-- 40_command_protocol.md R79: the write of a word to CMD. -/
def Obligations.CommandIssueLatchesTheWord : Prop :=
  ∀ (s : State) (w : Word) (rest : List Event), s.inbox = .hostWrite 0x010 .b4 w :: rest →
    step s =
      if s.busy then .next { s with inbox := rest, answer := some (.writeAnswer .okay), ovr := true }
      else .next { s with
        inbox := rest, answer := some (.writeAnswer .okay), cmdLatch := w, busy := true, done := false }

/-- 40_command_protocol.md R80: where CMD_LATCH decodes and ENGINE has its turn, the step is exec of the command; the step
does nothing around exec but take ENGINE's turn from the inbox. -/
def Obligations.StepRunsTheDecodedCommand : Prop :=
  ∀ (s : State) (i : Instr), s.busy = true → decode s.cmdLatch = .ok i →
    (s.inbox = [] → step s = exec i s) ∧
    (∀ rest, s.inbox = .engineStep :: rest → step s = exec i { s with inbox := rest })

/-- 40_command_protocol.md R80, 70_reset_and_hazards.md R142: the completion step is enabled only while BUSY = 1; an idle
block with nothing to do keeps its state. That a step with no event is ENGINE's turn is the model's choice (log 12), and so
is that ENGINE's turn of an idle block does nothing (log 1). -/
def Obligations.IdleBlockStaysAsItIs : Prop :=
  ∀ s : State, s.busy = false →
    (s.inbox = [] → step s = .next s) ∧
    (∀ rest, s.inbox = .engineStep :: rest → step s = .next { s with inbox := rest })

/-- 30_encoding.md R68: an illegal word is accepted while idle and completes with IllegalCommand, with no other effect. -/
def Obligations.IllegalWordCompletesWithIllegalCommand : Prop :=
  ∀ (s : State) (w : Word),
    (w.extractLsb' 0 4 = 0 ∨ 4 ≤ (w.extractLsb' 0 4).toNat ∨ w.extractLsb' 4 28 ≠ 0) →
    (∀ rest, s.busy = false → s.inbox = .hostWrite 0x010 .b4 w :: rest →
      step s = .next { s with
        inbox := rest, answer := some (.writeAnswer .okay), cmdLatch := w, busy := true, done := false }) ∧
    (∀ rest, s.busy = true → s.cmdLatch = w → s.inbox = .engineStep :: rest →
      step s = .next { s with
        inbox := rest, err := 5, errInfo := w, errIndex := 0, busy := false, done := true })

/-- 40_command_protocol.md R84, the end of R80 and the codes of 60_exceptions.md R125: WriteErr, and what every completion
leaves in the error registers, BUSY and DONE. -/
def Obligations.CompletionWritesErrorRegisters : Prop :=
  (∀ (s : State) (code : BitVec 4) (info index : Word),
    s.writeErr code info index = { s with err := code, errInfo := info, errIndex := index }) ∧
  (∀ s : State, s.errorFlag = true ↔ s.err ≠ 0) ∧
  (∀ (s t : State), engineComplete s = .next t →
    t.busy = false ∧ t.done = true ∧ (t.err = 0 → t.errInfo = 0 ∧ t.errIndex = 0) ∧ t.err.toNat ≤ 7)

/-- 40_command_protocol.md R83, 60_exceptions.md R130: a command that ends in an error changes nothing but ERR, ERR_INFO,
ERR_INDEX, BUSY and DONE. -/
def Obligations.FailedCommandChangesOnlyErrorRegisters : Prop :=
  ∀ (s t : State), engineComplete s = .next t → t.err ≠ 0 →
    t = { s with err := t.err, errInfo := t.errInfo, errIndex := t.errIndex, busy := false, done := true }

/-- 40_command_protocol.md R87: the flag lifecycle, and the order the flags enforce. -/
def Obligations.ValidityFlagLifecycle : Prop :=
  (∀ (s t : State) (rest : List Event), s.inbox = .resetInput :: rest → step s = .next t →
    t.treeValid = false ∧ t.codesValid = false ∧ t.outValid = false) ∧
  (∀ s t : State, exec .buildTree s = .next t → t.err = 0 →
    t.treeValid = true ∧ t.codesValid = false ∧ t.outValid = s.outValid) ∧
  (∀ s t : State, exec .buildCodes s = .next t → t.err = 0 →
    t.treeValid = false ∧ t.codesValid = true ∧ t.outValid = s.outValid) ∧
  (∀ s t : State, exec .encode s = .next t → t.err = 0 →
    t.treeValid = s.treeValid ∧ t.codesValid = s.codesValid ∧ t.outValid = true) ∧
  (∀ s t : State, engineComplete s = .next t → t.err ≠ 0 →
    t.treeValid = s.treeValid ∧ t.codesValid = s.codesValid ∧ t.outValid = s.outValid) ∧
  (∀ s : State, s.treeValid = false → ∃ t, exec .buildCodes s = .next t ∧ t.err = 6) ∧
  (∀ s : State, s.codesValid = false → ∃ t, exec .encode s = .next t ∧ t.err = 6)

/-- The frame of each command, in every outcome: what it may change (41_tree_builder.md R99, 42_code_assigner.md R108,
43_bitstream_encoder.md R120, R121, 40_command_protocol.md R80, R84); no byte of OUT past the stream changes. -/
def Obligations.CommandFrames : Prop :=
  (∀ s t : State, exec .buildTree s = .next t →
    t = { s with
      node := t.node, nodeCount := t.nodeCount, rootCntLo := t.rootCntLo, rootCntHi := t.rootCntHi,
      treeValid := t.treeValid, codesValid := t.codesValid,
      err := t.err, errInfo := t.errInfo, errIndex := t.errIndex, busy := false, done := true }) ∧
  (∀ s t : State, exec .buildCodes s = .next t →
    t = { s with
      ctab := t.ctab, treeValid := t.treeValid, codesValid := t.codesValid,
      err := t.err, errInfo := t.errInfo, errIndex := t.errIndex, busy := false, done := true }) ∧
  (∀ s t : State, exec .encode s = .next t →
    t = { s with
      out := t.out, hdrBitLen := t.hdrBitLen, outBitLen := t.outBitLen, outValid := t.outValid,
      err := t.err, errInfo := t.errInfo, errIndex := t.errIndex, busy := false, done := true } ∧
    ∀ j, byteCount (streamBits s).length ≤ j → t.outAt j = s.outAt j)

/-! ### The bus -/

/-- 20_memory.md R47, R48, R49 with the map of R45: exactly the misaligned, wrong-size and unmapped accesses get the ERROR
response; such a transaction changes no state and a read returns 0. -/
def Obligations.BusErrorExactlyForUnacceptedAccess : Prop :=
  ∀ (s : State) (rest : List Event) (a : Word) (n : BusSize) (v : Word),
    (s.inbox = .hostRead a n :: rest →
      (¬ busAccepts s.params a.toNat (sizeBytes n) →
        step s = .next { s with inbox := rest, answer := some (.readAnswer .error 0) }) ∧
      (busAccepts s.params a.toNat (sizeBytes n) →
        ∃ t d, step s = .next t ∧ t.answer = some (.readAnswer .okay d))) ∧
    (s.inbox = .hostWrite a n v :: rest →
      (¬ busAccepts s.params a.toNat (sizeBytes n) →
        step s = .next { s with inbox := rest, answer := some (.writeAnswer .error) }) ∧
      (busAccepts s.params a.toNat (sizeBytes n) →
        ∃ t, step s = .next t ∧ t.answer = some (.writeAnswer .okay)))

/-- 20_memory.md R50, R58: a read has no side effect; only the answer, and the model's count of draws (log 6), move. -/
def Obligations.ReadsHaveNoSideEffect : Prop :=
  ∀ (s : State) (rest : List Event) (a : Word) (n : BusSize), s.inbox = .hostRead a n :: rest →
    ∃ t, step s = .next t ∧ t = { s with inbox := rest, answer := t.answer, draws := t.draws } ∧
      (s.busy = false → t.draws = s.draws)

/-- 10_state.md R17 to R31 and its register map: what each register reads, reserved bits 0; the result registers while
idle. -/
def Obligations.RegistersReadTheirValues : Prop :=
  ∀ (s : State) (rest : List Event) (a d : Word), s.inbox = .hostRead a .b4 :: rest →
    ((a, d) ∈ openRegisters s ∨ (s.busy = false ∧ (a, d) ∈ resultRegisters s)) →
    step s = .next { s with inbox := rest, answer := some (.readAnswer .okay d) }

/-- 20_memory.md R53: while BUSY = 1 a read of a result area is a draw, one per read, and every other location reads its
current value. The draw is the free value Config.busyRead (log 6): nothing is claimed of it. -/
def Obligations.BusyReadsOfResultsAreDraws : Prop :=
  ∀ (s : State) (rest : List Event) (a : Word) (n : BusSize), s.busy = true → s.inbox = .hostRead a n :: rest →
    busAccepts s.params a.toNat (sizeBytes n) →
    (((0x02C ≤ a.toNat ∧ a.toNat < 0x040) ∨ (0x2000 ≤ a.toNat ∧ a.toNat < 0x8000) ∨ 0x02000000 ≤ a.toNat) →
      paramsWellFormed s.params →
      step s = .next { s with
        inbox := rest, draws := s.draws + 1,
        answer := some (.readAnswer .okay (lowBytes n (Config.busyRead s.draws))) }) ∧
    (∀ d, n = .b4 → (a, d) ∈ openRegisters s →
      step s = .next { s with inbox := rest, answer := some (.readAnswer .okay d) }) ∧
    (∀ i, i < 256 → a.toNat = 0x1000 + 8 * i →
      step s = .next { s with
        inbox := rest, answer := some (.readAnswer .okay (BitVec.ofNat 32 (s.ftabAt i).sym.toNat)) }) ∧
    (∀ i, i < 256 → a.toNat = 0x1004 + 8 * i →
      step s = .next { s with inbox := rest, answer := some (.readAnswer .okay (s.ftabAt i).cnt) }) ∧
    (∀ i, i < s.params.maxSrcLen → a.toNat = 0x01000000 + i → paramsWellFormed s.params →
      ∃ d, d.toNat = ((List.range (sizeBytes n)).map fun k => (s.srcAt (i + k)).toNat * 256 ^ k).sum ∧
        step s = .next { s with inbox := rest, answer := some (.readAnswer .okay d) })

/-- 20_memory.md R50, R55: an OKAY read of SRC (at any time) or OUT (while idle) returns the bytes little-endian, upper bits
0. -/
def Obligations.ByteWindowsReadLittleEndian : Prop :=
  ∀ (s : State) (rest : List Event) (a : Word) (n : BusSize) (i : Nat),
    paramsWellFormed s.params → s.inbox = .hostRead a n :: rest → a.toNat % sizeBytes n = 0 →
    (a.toNat = 0x01000000 + i → i + sizeBytes n ≤ s.params.maxSrcLen →
      ∃ d, d.toNat = ((List.range (sizeBytes n)).map fun k => (s.srcAt (i + k)).toNat * 256 ^ k).sum ∧
        step s = .next { s with inbox := rest, answer := some (.readAnswer .okay d) }) ∧
    (a.toNat = 0x02000000 + i → i + sizeBytes n ≤ s.params.outCapBytes → s.busy = false →
      ∃ d, d.toNat = ((List.range (sizeBytes n)).map fun k => (s.outAt (i + k)).toNat * 256 ^ k).sum ∧
        step s = .next { s with inbox := rest, answer := some (.readAnswer .okay d) })

/-- 20_memory.md R51, R55: an OKAY write to SRC while idle stores its bytes little-endian, and leaves every other byte and
every other field unchanged. -/
def Obligations.SourceWritesStoreTheirBytes : Prop :=
  ∀ (s : State) (rest : List Event) (a : Word) (n : BusSize) (v : Word) (i : Nat),
    paramsWellFormed s.params → s.busy = false → s.inbox = .hostWrite a n v :: rest →
    a.toNat % sizeBytes n = 0 → a.toNat = 0x01000000 + i → i + sizeBytes n ≤ s.params.maxSrcLen →
    ∃ t, step s = .next t ∧ t = { s with inbox := rest, answer := some (.writeAnswer .okay), src := t.src } ∧
      (∀ k, k < sizeBytes n → (t.srcAt (i + k)).toNat = v.toNat / 256 ^ k % 256) ∧
      (∀ j, j < i ∨ i + sizeBytes n ≤ j → t.srcAt j = s.srcAt j)

/-- 30_encoding.md R70: an FTAB entry's two words, read and written; reserved bits are discarded and read 0. -/
def Obligations.FrequencyTableWindowLayout : Prop :=
  ∀ (s : State) (rest : List Event) (a v : Word) (i : Nat), i < 256 →
    (s.inbox = .hostRead a .b4 :: rest → a.toNat = 0x1000 + 8 * i →
      step s = .next { s with
        inbox := rest, answer := some (.readAnswer .okay (BitVec.ofNat 32 (s.ftabAt i).sym.toNat)) }) ∧
    (s.inbox = .hostRead a .b4 :: rest → a.toNat = 0x1000 + 8 * i + 4 →
      step s = .next { s with inbox := rest, answer := some (.readAnswer .okay (s.ftabAt i).cnt) }) ∧
    (s.busy = false → s.inbox = .hostWrite a .b4 v :: rest → a.toNat = 0x1000 + 8 * i →
      ∃ t, step s = .next t ∧ t = { s with inbox := rest, answer := some (.writeAnswer .okay), ftabSym := t.ftabSym } ∧
        (t.ftabAt i).sym.toNat = v.toNat % 256 ∧ ∀ j, j ≠ i → (t.ftabAt j).sym = (s.ftabAt j).sym) ∧
    (s.busy = false → s.inbox = .hostWrite a .b4 v :: rest → a.toNat = 0x1000 + 8 * i + 4 →
      ∃ t, step s = .next t ∧ t = { s with inbox := rest, answer := some (.writeAnswer .okay), ftabCnt := t.ftabCnt } ∧
        (t.ftabAt i).cnt = v ∧ ∀ j, j ≠ i → (t.ftabAt j).cnt = (s.ftabAt j).cnt)

/-- 30_encoding.md R71: the four read-only words of a NODE entry, read while idle. -/
def Obligations.NodeWindowLayout : Prop :=
  ∀ (s : State) (rest : List Event) (a v : Word) (i k : Nat), i ≤ 510 → k < 4 → a.toNat = 0x2000 + 16 * i + 4 * k →
    (s.inbox = .hostWrite a .b4 v :: rest →
      step s = .next { s with inbox := rest, answer := some (.writeAnswer .okay) }) ∧
    (s.busy = false → s.inbox = .hostRead a .b4 :: rest →
    ∃ d : Word, step s = .next { s with inbox := rest, answer := some (.readAnswer .okay d) } ∧
      (k = 0 → d.toNat = (s.nodeAt i).cnt.toNat % 2 ^ 32) ∧
      (k = 1 → d.toNat = (s.nodeAt i).cnt.toNat / 2 ^ 32) ∧
      (k = 2 → d.toNat = (s.nodeAt i).lp.toNat * 2 ^ 31 + (s.nodeAt i).rp.toNat * 2 ^ 30 +
        (s.nodeAt i).right.toNat * 2 ^ 16 + (s.nodeAt i).left.toNat) ∧
      (k = 3 → d.toNat = (s.nodeAt i).hs.toNat * 2 ^ 31 + (s.nodeAt i).sym.toNat))

/-- 30_encoding.md R72: the sixteen read-only words of a CTAB entry, read while idle. -/
def Obligations.CodeTableWindowLayout : Prop :=
  ∀ (s : State) (rest : List Event) (a v : Word) (c k : Nat), c ≤ 255 → k < 16 → a.toNat = 0x4000 + 64 * c + 4 * k →
    (s.inbox = .hostWrite a .b4 v :: rest →
      step s = .next { s with inbox := rest, answer := some (.writeAnswer .okay) }) ∧
    (s.busy = false → s.inbox = .hostRead a .b4 :: rest →
    ∃ d : Word, step s = .next { s with inbox := rest, answer := some (.readAnswer .okay d) } ∧
      (k = 0 → d.toNat = (s.ctabAt c).valid.toNat * 2 ^ 31 + (s.ctabAt c).len.toNat) ∧
      (1 ≤ k → k ≤ 8 → ∀ b, b < 32 → d.getLsbD (31 - b) = (s.codeOf c).getD (32 * (k - 1) + b) false) ∧
      (9 ≤ k → d = 0))

/-- 20_memory.md R51, R52: writes to CTRL and STATUS act at any time (10_state.md R20, R22), writes to FTAB_LEN and SRC_LEN
while idle (10_state.md R26, R27). -/
def Obligations.RegisterWritesTakeEffect : Prop :=
  ∀ (s : State) (rest : List Event) (v : Word),
    (s.inbox = .hostWrite 0x00C .b4 v :: rest →
      step s = .next { s with inbox := rest, answer := some (.writeAnswer .okay), ie := v.getLsbD 0 }) ∧
    (s.inbox = .hostWrite 0x014 .b4 v :: rest →
      step s = .next { s with
        inbox := rest, answer := some (.writeAnswer .okay),
        done := if v.getLsbD 1 then false else s.done, ovr := if v.getLsbD 6 then false else s.ovr }) ∧
    (s.busy = false → s.inbox = .hostWrite 0x024 .b4 v :: rest →
      step s = .next { s with
        inbox := rest, answer := some (.writeAnswer .okay), ftabLen := BitVec.ofNat 9 (v.toNat % 512) }) ∧
    (s.busy = false → s.inbox = .hostWrite 0x028 .b4 v :: rest →
      step s = .next { s with inbox := rest, answer := some (.writeAnswer .okay), srcLen := v })

/-- 20_memory.md R51: a write to a read-only register or to the NODE, CTAB or OUT window is ignored, at any time. -/
def Obligations.ReadOnlyWritesAreIgnored : Prop :=
  ∀ (s : State) (rest : List Event) (a : Word) (n : BusSize) (v : Word), paramsWellFormed s.params →
    s.inbox = .hostWrite a n v :: rest → busAccepts s.params a.toNat (sizeBytes n) →
    (a.toNat < 0x00C ∨ (0x018 ≤ a.toNat ∧ a.toNat < 0x024) ∨ (0x02C ≤ a.toNat ∧ a.toNat < 0x040) ∨
      (0x2000 ≤ a.toNat ∧ a.toNat < 0x8000) ∨ 0x02000000 ≤ a.toNat) →
    step s = .next { s with inbox := rest, answer := some (.writeAnswer .okay) }

/-- 20_memory.md R52: what is dropped while BUSY = 1, what acts, what is ignored; and that the inputs of a command cannot
change before its completion. -/
def Obligations.BusyWritesAreDropped : Prop :=
  ∀ (s : State) (rest : List Event) (a : Word) (n : BusSize) (v : Word), paramsWellFormed s.params → s.busy = true →
    s.inbox = .hostWrite a n v :: rest → busAccepts s.params a.toNat (sizeBytes n) →
    ((a.toNat = 0x010 ∨ a.toNat = 0x024 ∨ a.toNat = 0x028 ∨ (0x1000 ≤ a.toNat ∧ a.toNat < 0x1800) ∨
        (0x01000000 ≤ a.toNat ∧ a.toNat < 0x02000000)) →
      step s = .next { s with inbox := rest, answer := some (.writeAnswer .okay), ovr := true }) ∧
    (a.toNat = 0x00C →
      step s = .next { s with inbox := rest, answer := some (.writeAnswer .okay), ie := v.getLsbD 0 }) ∧
    (a.toNat = 0x014 →
      step s = .next { s with
        inbox := rest, answer := some (.writeAnswer .okay),
        done := if v.getLsbD 1 then false else s.done, ovr := if v.getLsbD 6 then false else s.ovr }) ∧
    ((a.toNat < 0x00C ∨ (0x018 ≤ a.toNat ∧ a.toNat < 0x024) ∨ (0x02C ≤ a.toNat ∧ a.toNat < 0x040) ∨
        (0x2000 ≤ a.toNat ∧ a.toNat < 0x8000) ∨ 0x02000000 ≤ a.toNat) →
      step s = .next { s with inbox := rest, answer := some (.writeAnswer .okay) }) ∧
    (∃ t, step s = .next t ∧ t.busy = true ∧ t.cmdLatch = s.cmdLatch ∧ t.ftabLen = s.ftabLen ∧ t.srcLen = s.srcLen ∧
      t.ftabSym = s.ftabSym ∧ t.ftabCnt = s.ftabCnt ∧ t.src = s.src)

/-- 10_state.md R23 to R25, R28 to R31, R33, R35, R37, 92_eei_decisions.md D21: no HOST transaction changes a result: the
error registers, the result registers, the NODE, CTAB and OUT arrays and the validity flags. -/
def Obligations.HostNeverWritesResults : Prop :=
  ∀ (s t : State) (e : Event) (rest : List Event), s.inbox = e :: rest → isHostEvent e = true → step s = .next t →
    t = { s with
      inbox := rest, answer := t.answer, draws := t.draws, ie := t.ie, busy := t.busy, done := t.done, ovr := t.ovr,
      ftabLen := t.ftabLen, srcLen := t.srcLen, cmdLatch := t.cmdLatch, ftabSym := t.ftabSym, ftabCnt := t.ftabCnt,
      src := t.src }

/-! ### Interrupt and reset -/

/-- 10_state.md R41, 60_exceptions.md R128: the level interrupt, over the events that can change it. -/
def Obligations.InterruptFollowsDoneAndEnable : Prop :=
  (∀ s : State, s.irq = true ↔ s.done = true ∧ s.ie = true) ∧
  (∀ p k, (State.resetWith p k).irq = false) ∧
  (∀ (s t : State) (rest : List Event), s.inbox = .resetInput :: rest → step s = .next t → t.irq = false) ∧
  (∀ s t : State, engineComplete s = .next t → t.irq = s.ie) ∧
  (∀ (s t : State) (v : Word) (rest : List Event), s.inbox = .hostWrite 0x014 .b4 v :: rest → v.getLsbD 1 = true →
    step s = .next t → t.irq = false) ∧
  (∀ (s t : State) (w : Word) (rest : List Event), s.inbox = .hostWrite 0x010 .b4 w :: rest → s.busy = false →
    step s = .next t → t.irq = false) ∧
  (∀ (s t : State) (v : Word) (rest : List Event), s.inbox = .hostWrite 0x00C .b4 v :: rest → v.getLsbD 0 = true →
    s.done = true → step s = .next t → t.irq = true)

/-- 70_reset_and_hazards.md R140: the state after reset, for every block. -/
def Obligations.ResetLeavesTheStatedValues : Prop :=
  (∀ (p : Config.Params) (k : Nat), HoldsResetValues (State.resetWith p k) p) ∧
  HoldsResetValues State.reset Config.reference

/-- 70_reset_and_hazards.md R139, R141: asserting the reset input at any time, BUSY or not, gives the reset values and no
completion of a command in progress; the parameters of the block stay. -/
def Obligations.ResetInputAbandonsTheCommand : Prop :=
  ∀ (s : State) (rest : List Event), s.inbox = .resetInput :: rest →
    ∃ t, step s = .next t ∧ HoldsResetValues t s.params

/-- 10_state.md R22: OUT_VALID is cleared by nothing but reset; the parameters of a block (R18, R19) never change. -/
def Obligations.OutValidClearedOnlyByReset : Prop :=
  ∀ s t : State, step s = .next t →
    t.params = s.params ∧
    (s.outValid = true → t.outValid = true ∨ ∃ rest, s.inbox = .resetInput :: rest)

/-! ### BUILD_TREE -/

/-- 41_tree_builder.md R92: the checks, in their order; the first that fails decides the error. -/
def Obligations.BuildTreeValidatesInOrder : Prop :=
  ∀ s : State,
    (s.ftabLen = 0 →
      exec .buildTree s = .next { s with err := 1, errInfo := 1, errIndex := 0, busy := false, done := true }) ∧
    (256 < s.ftabLen.toNat →
      exec .buildTree s = .next { s with err := 1, errInfo := 2, errIndex := 0, busy := false, done := true }) ∧
    (s.ftabLen.toNat ≤ 256 → ∀ i, i < s.ftabLen.toNat →
      (∀ j, j < i → (s.ftabAt j).cnt ≠ 0 ∧ ∀ k, k < j → (s.ftabAt k).sym ≠ (s.ftabAt j).sym) →
      ((s.ftabAt i).cnt = 0 →
        exec .buildTree s = .next { s with
          err := 1, errInfo := 3, errIndex := BitVec.ofNat 32 i, busy := false, done := true }) ∧
      ((s.ftabAt i).cnt ≠ 0 → (∃ k, k < i ∧ (s.ftabAt k).sym = (s.ftabAt i).sym) →
        exec .buildTree s = .next { s with
          err := 1, errInfo := 4, errIndex := BitVec.ofNat 32 i, busy := false, done := true })) ∧
    (TableValid s → ∃ t, exec .buildTree s = .next t ∧ t.err = 0)

/-- 41_tree_builder.md R93, R94, R95, R97, R99: a valid table completes. The leaves stand at their index; merge k removes
the two members of the working collection with the smallest (cnt, index), the first becomes the left child and the second
the right child of node n + k; after n - 1 merges the one member left is node 2n - 2, the root; the entries past the tree
are zero; the registers and flags are written, and nothing else. -/
def Obligations.BuildTreeMergesTheTwoLeast : Prop :=
  ∀ s : State, TableValid s → ∃ t, exec .buildTree s = .next t ∧
    t = { s with
      node := t.node
      nodeCount := BitVec.ofNat 9 (2 * s.ftabLen.toNat - 1)
      rootCntLo := BitVec.ofNat 32 ((t.nodeAt (2 * s.ftabLen.toNat - 2)).cnt.toNat % 2 ^ 32)
      rootCntHi := BitVec.ofNat 8 ((t.nodeAt (2 * s.ftabLen.toNat - 2)).cnt.toNat / 2 ^ 32)
      treeValid := true, codesValid := false
      err := 0, errInfo := 0, errIndex := 0, busy := false, done := true } ∧
    (∀ i, i < s.ftabLen.toNat → t.nodeAt i =
      { cnt := BitVec.ofNat 40 (s.ftabAt i).cnt.toNat, lp := false, left := 0, rp := false, right := 0,
        hs := true, sym := (s.ftabAt i).sym }) ∧
    (∀ k, k < s.ftabLen.toNat - 1 → MergedAt t.nodeAt s.ftabLen.toNat k) ∧
    (∀ i, InWork t.nodeAt s.ftabLen.toNat (s.ftabLen.toNat - 1) i ↔ i = 2 * s.ftabLen.toNat - 2) ∧
    (∀ i, 2 * s.ftabLen.toNat - 1 ≤ i → i ≤ 510 → t.nodeAt i =
      { cnt := 0, lp := false, left := 0, rp := false, right := 0, hs := false, sym := 0 })

/-- 41_tree_builder.md R96: a merge's count is the exact sum of its two children's, the root's is exactly the sum of the
input counts, and none overflows 40 bits. -/
def Obligations.RootCountIsTheSumOfCounts : Prop :=
  ∀ s : State, TableValid s → ∃ t, exec .buildTree s = .next t ∧
    (∀ i, s.ftabLen.toNat ≤ i → i < 2 * s.ftabLen.toNat - 1 → (t.nodeAt i).cnt.toNat =
      (t.nodeAt (t.nodeAt i).left.toNat).cnt.toNat + (t.nodeAt (t.nodeAt i).right.toNat).cnt.toNat) ∧
    (t.nodeAt (2 * s.ftabLen.toNat - 2)).cnt.toNat =
      ((List.range s.ftabLen.toNat).map fun i => (s.ftabAt i).cnt.toNat).sum ∧
    t.rootCntHi.toNat * 2 ^ 32 + t.rootCntLo.toNat =
      ((List.range s.ftabLen.toNat).map fun i => (s.ftabAt i).cnt.toNat).sum ∧
    ((List.range s.ftabLen.toNat).map fun i => (s.ftabAt i).cnt.toNat).sum ≤ 256 * (2 ^ 32 - 1) ∧
    256 * (2 ^ 32 - 1) < 2 ^ 40

/-- 10_state.md R34, 41_tree_builder.md R97, R98: the form of every tree BUILD_TREE writes: each node but the root is the
child of exactly one node, on exactly one side, and of smaller index. -/
def Obligations.BuiltTreeHasExclusiveOwnership : Prop :=
  ∀ s : State, TableValid s → ∃ t, exec .buildTree s = .next t ∧
    let n := s.ftabLen.toNat
    (∀ i, i < n → (t.nodeAt i).lp = false ∧ (t.nodeAt i).rp = false ∧ (t.nodeAt i).hs = true ∧
      (t.nodeAt i).left = 0 ∧ (t.nodeAt i).right = 0) ∧
    (∀ i, n ≤ i → i < 2 * n - 1 → (t.nodeAt i).lp = true ∧ (t.nodeAt i).rp = true ∧ (t.nodeAt i).hs = false ∧
      (t.nodeAt i).sym = 0 ∧ (t.nodeAt i).left.toNat < i ∧ (t.nodeAt i).right.toNat < i ∧
      (t.nodeAt i).left ≠ (t.nodeAt i).right ∧
      (t.nodeAt i).cnt.toNat =
        (t.nodeAt (t.nodeAt i).left.toNat).cnt.toNat + (t.nodeAt (t.nodeAt i).right.toNat).cnt.toNat) ∧
    (∀ j, j < 2 * n - 2 → ∃! i, n ≤ i ∧ i < 2 * n - 1 ∧ ((t.nodeAt i).left.toNat = j ∨ (t.nodeAt i).right.toNat = j)) ∧
    (∀ i, n ≤ i → i < 2 * n - 1 → (t.nodeAt i).left.toNat ≠ 2 * n - 2 ∧ (t.nodeAt i).right.toNat ≠ 2 * n - 2)

/-! ### BUILD_CODES -/

/-- 42_code_assigner.md R103: without a valid tree, SequenceError(1, 0), whatever NODE holds. -/
def Obligations.BuildCodesWithoutTreeIsSequenceError : Prop :=
  ∀ s : State, s.treeValid = false →
    exec .buildCodes s = .next { s with err := 6, errInfo := 1, errIndex := 0, busy := false, done := true }

/-- 42_code_assigner.md R105: a lone leaf gets the one-bit codeword "0". -/
def Obligations.LoneLeafGetsOneBitCodeword : Prop :=
  ∀ s : State, s.treeValid = true → s.nodeCount = 1 →
    (s.nodeAt 0).lp = false → (s.nodeAt 0).rp = false → (s.nodeAt 0).hs = true →
    ∃ t, exec .buildCodes s = .next t ∧ t.err = 0 ∧ t.codesValid = true ∧
      (t.ctabAt (s.nodeAt 0).sym.toNat).valid = true ∧ t.codeOf (s.nodeAt 0).sym.toNat = [false] ∧
      (t.ctabAt (s.nodeAt 0).sym.toNat).len = 1 ∧
      ∀ c, c < 256 → c ≠ (s.nodeAt 0).sym.toNat → t.ctabAt c = { valid := false, len := 0, code := 0 }

/-- 42_code_assigner.md R106: a root with exactly one child present, or with no child and no symbol, raises InvalidTree(0, r).
No run reaches such a state (Obligations.StepKeepsTheInvariant). -/
def Obligations.MalformedRootIsInvalidTree : Prop :=
  ∀ s : State, s.treeValid = true → s.nodeCount ≠ 0 →
    let nd := s.nodeAt (s.nodeCount.toNat - 1)
    (nd.lp ≠ nd.rp ∨ (nd.lp = false ∧ nd.rp = false ∧ nd.hs = false)) →
    exec .buildCodes s = .next { s with
      err := 2, errInfo := 0, errIndex := BitVec.ofNat 32 (s.nodeCount.toNat - 1), busy := false, done := true }

/-- 42_code_assigner.md R104, R108 (with R106, R107: no InvalidTree, no CodeTooLong): where NODE holds a tree, BUILD_CODES
completes, each leaf's symbol gets its path from the root, every other symbol an absent entry, all 256 entries, and nothing
else is written. -/
def Obligations.CodewordsAreThePathsFromTheRoot : Prop :=
  ∀ (s : State) (tr : HTree), s.treeValid = true → BlockHoldsTree s tr →
    ∃ t, exec .buildCodes s = .next t ∧
      t = { s with
        ctab := t.ctab, codesValid := true, treeValid := false,
        err := 0, errInfo := 0, errIndex := 0, busy := false, done := true } ∧
      ∀ c : Byte, t.ctabAt c.toNat = treeEntry tr c

/-- 42_code_assigner.md R109: BUILD_TREE then BUILD_CODES on a valid table: every symbol of the table gets exactly one
codeword and no other symbol does; the codewords are prefix-free; every length is in 1 .. 255. -/
def Obligations.TableSymbolsGetFreeCodewords : Prop :=
  ∀ s : State, TableValid s → ∃ t u, exec .buildTree s = .next t ∧ exec .buildCodes t = .next u ∧
    u.err = 0 ∧ u.codesValid = true ∧
    (∀ c : Byte, (u.ctabAt c.toNat).valid = true ↔ ∃ i, i < s.ftabLen.toNat ∧ (s.ftabAt i).sym = c) ∧
    (∀ a b : Byte, (u.ctabAt a.toNat).valid = true → (u.ctabAt b.toNat).valid = true → a ≠ b →
      ¬ u.codeOf a.toNat <+: u.codeOf b.toNat) ∧
    (∀ c : Byte, (u.ctabAt c.toNat).valid = true → 1 ≤ (u.ctabAt c.toNat).len.toNat ∧
      (u.ctabAt c.toNat).len.toNat ≤ 255 ∧ (u.codeOf c.toNat).length = (u.ctabAt c.toNat).len.toNat)

/-- 42_code_assigner.md R109, in every state that meets the invariant: the valid codewords are prefix-free and not empty. -/
def Obligations.ValidCodewordsArePrefixFree : Prop :=
  ∀ s : State, Inv s → s.codesValid = true →
    (∀ a b : Byte, (s.ctabAt a.toNat).valid = true → (s.ctabAt b.toNat).valid = true → a ≠ b →
      ¬ s.codeOf a.toNat <+: s.codeOf b.toNat) ∧
    (∀ c : Byte, (s.ctabAt c.toNat).valid = true → s.codeOf c.toNat ≠ [])

/-! ### ENCODE -/

/-- 43_bitstream_encoder.md R113: the three checks, in their order. -/
def Obligations.EncodeChecksInOrder : Prop :=
  ∀ s : State,
    (s.codesValid = false →
      exec .encode s = .next { s with err := 6, errInfo := 2, errIndex := 0, busy := false, done := true }) ∧
    (s.codesValid = true → s.params.maxSrcLen < s.srcLen.toNat →
      exec .encode s = .next { s with err := 1, errInfo := 5, errIndex := 0, busy := false, done := true }) ∧
    (s.codesValid = true → s.srcLen.toNat ≤ s.params.maxSrcLen → ∀ i, i < s.srcLen.toNat →
      (∀ j, j < i → (s.ctabAt (s.srcAt j).toNat).valid = true) → (s.ctabAt (s.srcAt i).toNat).valid = false →
      exec .encode s = .next { s with
        err := 4, errInfo := BitVec.ofNat 32 (s.srcAt i).toNat, errIndex := BitVec.ofNat 32 i,
        busy := false, done := true })

/-- 43_bitstream_encoder.md R114, R115, R117, R120, R121: ENCODE completes where the stream fits; OUT holds the stream
packed MSB first and zero-padded, every later byte unchanged; HDR_BITLEN, OUT_BITLEN and OUT_VALID; nothing else. -/
def Obligations.EncodeWritesThePackedStream : Prop :=
  ∀ s : State, EncodeReady s → ((specStream s).length + 7) / 8 ≤ s.params.outCapBytes →
    ∃ t, exec .encode s = .next t ∧
      t = { s with
        out := t.out
        hdrBitLen := BitVec.ofNat 16 (specHeader s).length
        outBitLen := BitVec.ofNat 32 (specStream s).length
        outValid := true
        err := 0, errInfo := 0, errIndex := 0, busy := false, done := true } ∧
      (∀ j k, j < ((specStream s).length + 7) / 8 → k < 8 →
        (t.outAt j).getLsbD (7 - k) = (specStream s).getD (8 * j + k) false) ∧
      (∀ j, ((specStream s).length + 7) / 8 ≤ j → t.outAt j = s.outAt j)

/-- 43_bitstream_encoder.md R119: a stream that does not fit raises OutputOverflow(T, 0) and writes nothing; with the
reference parameters it always fits. -/
def Obligations.OverflowingStreamWritesNothing : Prop :=
  (∀ s : State, EncodeReady s → s.params.outCapBytes < ((specStream s).length + 7) / 8 →
    exec .encode s = .next { s with
      err := 7, errInfo := BitVec.ofNat 32 (specStream s).length, errIndex := 0, busy := false, done := true }) ∧
  (∀ s : State, Inv s → EncodeReady s → s.params = Config.reference →
    (specStream s).length ≤ 16748687 ∧ ∃ t, exec .encode s = .next t ∧ t.err = 0)

/-- 43_bitstream_encoder.md R116: the header length by its entries, 17 for one symbol, the bound for n symbols, and that it
always fits its 16 bits. -/
def Obligations.HeaderLengthFitsSixteenBits : Prop :=
  ∀ s : State, Inv s → s.codesValid = true →
    (specHeader s).length = 16 * (codePairs s).length + ((codePairs s).map fun x => x.2.length).sum ∧
    ((codePairs s).length = 1 → (specHeader s).length = 17) ∧
    (2 ≤ (codePairs s).length → (specHeader s).length ≤
      16 * (codePairs s).length + ((codePairs s).length - 1) * ((codePairs s).length + 2) / 2) ∧
    (codePairs s).length ≤ 256 ∧ (specHeader s).length ≤ 36991

/-- 43_bitstream_encoder.md R118 (and 00_scope.md R10 (c), (d)): the stream, T < 2^32, and that HDR_BITLEN and OUT_BITLEN
are exact. -/
def Obligations.StreamLengthFitsThirtyTwoBits : Prop :=
  ∀ s : State, Inv s → EncodeReady s →
    specStream s = msbBits 16 (specHeader s).length ++ specHeader s ++ specPayload s ∧
    (specStream s).length = 16 + (specHeader s).length + (specPayload s).length ∧ (specStream s).length < 2 ^ 32 ∧
    ∀ t, exec .encode s = .next t → t.err = 0 →
      t.hdrBitLen.toNat = (specHeader s).length ∧ t.outBitLen.toNat = (specStream s).length

/-- 43_bitstream_encoder.md R122: the header, parsed back, gives exactly the code table, in ascending symbol order, and
exactly HB bits are consumed. -/
def Obligations.HeaderRoundTrip : Prop :=
  ∀ s : State, Inv s → s.codesValid = true → parseHeader (specStream s) = (codePairs s, (specHeader s).length)

/-! ### Determinism -/

/-- 40_command_protocol.md R86, 30_encoding.md R69: ENCODE's result is a function of its operands. -/
def Obligations.EncodeDependsOnItsOperandsOnly : Prop :=
  ∀ s₁ s₂ t₁ : State, s₁.params = s₂.params → s₁.codesValid = s₂.codesValid → s₁.srcLen = s₂.srcLen →
    (∀ c, c < 256 → s₁.ctabAt c = s₂.ctabAt c) → (∀ i, i < s₁.srcLen.toNat → s₁.srcAt i = s₂.srcAt i) →
    exec .encode s₁ = .next t₁ →
    ∃ t₂, exec .encode s₂ = .next t₂ ∧ t₁.err = t₂.err ∧ t₁.errInfo = t₂.errInfo ∧ t₁.errIndex = t₂.errIndex ∧
      (t₁.err = 0 → t₁.hdrBitLen = t₂.hdrBitLen ∧ t₁.outBitLen = t₂.outBitLen ∧
        ∀ j, j < ((specStream s₁).length + 7) / 8 → t₁.outAt j = t₂.outAt j)

/-- 40_command_protocol.md R86, 30_encoding.md R69: BUILD_TREE's and BUILD_CODES's results are functions of their operands. -/
def Obligations.BuildersDependOnTheirOperandsOnly : Prop :=
  (∀ s₁ s₂ t₁ : State, s₁.ftabLen = s₂.ftabLen → (∀ i, i < s₁.ftabLen.toNat → s₁.ftabAt i = s₂.ftabAt i) →
    exec .buildTree s₁ = .next t₁ →
    ∃ t₂, exec .buildTree s₂ = .next t₂ ∧ t₁.err = t₂.err ∧ t₁.errInfo = t₂.errInfo ∧ t₁.errIndex = t₂.errIndex ∧
      (t₁.err = 0 → t₁.nodeCount = t₂.nodeCount ∧ t₁.rootCntLo = t₂.rootCntLo ∧ t₁.rootCntHi = t₂.rootCntHi ∧
        ∀ i, i ≤ 510 → t₁.nodeAt i = t₂.nodeAt i)) ∧
  (∀ s₁ s₂ t₁ : State, s₁.treeValid = s₂.treeValid → s₁.nodeCount = s₂.nodeCount →
    (∀ i, i ≤ 510 → s₁.nodeAt i = s₂.nodeAt i) →
    exec .buildCodes s₁ = .next t₁ →
    ∃ t₂, exec .buildCodes s₂ = .next t₂ ∧ t₁.err = t₂.err ∧ t₁.errInfo = t₂.errInfo ∧ t₁.errIndex = t₂.errIndex ∧
      (t₁.err = 0 → ∀ c, c < 256 → t₁.ctabAt c = t₂.ctabAt c))

/-! ### The invariant and progress -/

/-- The invariant holds right after reset, for every block whose parameters meet 00_scope.md R9. -/
def Obligations.ResetMeetsTheInvariant : Prop :=
  (∀ p k, paramsWellFormed p → Inv (State.resetWith p k)) ∧ Inv State.reset

/-- Every step keeps the invariant: NODE holds a tree of the form of 10_state.md R34, CTAB the code table of a tree while
CODES_VALID = 1 (R35), the arrays keep their canonical form and size, no reserved error code is written (60_exceptions.md
R125), TREE_VALID and CODES_VALID are never 1 together (40_command_protocol.md R87). -/
def Obligations.StepKeepsTheInvariant : Prop :=
  ∀ s t : State, Inv s → step s = .next t → Inv t

/-- The arrays keep their canonical form and their size in every step from every state that has them so, and hold it at
reset; no premise on trees or codes. -/
def Obligations.StepKeepsTheArraysCanonical : Prop :=
  (∀ p k, TablesOk (State.resetWith p k)) ∧
  ∀ s t : State, TablesOk s → step s = .next t → TablesOk t

/-- No step of a block that meets the invariant stops: InvalidTree and CodeTooLong cannot occur (42_code_assigner.md R106,
R107), nor can the model's two faults (log 8, log 9). -/
def Obligations.NoStepStopsUnderTheInvariant : Prop :=
  ∀ s : State, Inv s → ∃ t, step s = .next t ∧ (s.err ≠ 2 → t.err ≠ 2) ∧ (s.err ≠ 3 → t.err ≠ 3)

/-- 40_command_protocol.md R85 in the model's terms (log 12): with only HOST transactions waiting, a command in progress is
completed right after them. -/
def Obligations.BusyCommandIsCompleted : Prop :=
  ∀ s : State, Inv s → s.busy = true → (∀ e ∈ s.inbox, isHostEvent e = true) →
    ∃ t, Host.Core.run core (s.inbox.length + 1) s = .next t ∧ t.busy = false ∧ t.inbox = [] ∧ t.done = true
end

