-- ==== Sys2Proof/Laws/State.lean ====
section
/-! SUPPORT. One lemma per field and update of State, each true by rfl, so that no proof unfolds a record update. -/

namespace Sys2Proof.Machine

variable (s : State)

/-! ### State.writeErr -/

@[simp] theorem State.writeErr_params (code : BitVec 4) (info index : Word) : (s.writeErr code info index).params = s.params := rfl
@[simp] theorem State.writeErr_resets (code : BitVec 4) (info index : Word) : (s.writeErr code info index).resets = s.resets := rfl
@[simp] theorem State.writeErr_draws (code : BitVec 4) (info index : Word) : (s.writeErr code info index).draws = s.draws := rfl
@[simp] theorem State.writeErr_inbox (code : BitVec 4) (info index : Word) : (s.writeErr code info index).inbox = s.inbox := rfl
@[simp] theorem State.writeErr_answer (code : BitVec 4) (info index : Word) : (s.writeErr code info index).answer = s.answer := rfl
@[simp] theorem State.writeErr_ie (code : BitVec 4) (info index : Word) : (s.writeErr code info index).ie = s.ie := rfl
@[simp] theorem State.writeErr_busy (code : BitVec 4) (info index : Word) : (s.writeErr code info index).busy = s.busy := rfl
@[simp] theorem State.writeErr_done (code : BitVec 4) (info index : Word) : (s.writeErr code info index).done = s.done := rfl
@[simp] theorem State.writeErr_treeValid (code : BitVec 4) (info index : Word) : (s.writeErr code info index).treeValid = s.treeValid := rfl
@[simp] theorem State.writeErr_codesValid (code : BitVec 4) (info index : Word) : (s.writeErr code info index).codesValid = s.codesValid := rfl
@[simp] theorem State.writeErr_outValid (code : BitVec 4) (info index : Word) : (s.writeErr code info index).outValid = s.outValid := rfl
@[simp] theorem State.writeErr_ovr (code : BitVec 4) (info index : Word) : (s.writeErr code info index).ovr = s.ovr := rfl
@[simp] theorem State.writeErr_err (code : BitVec 4) (info index : Word) : (s.writeErr code info index).err = code := rfl
@[simp] theorem State.writeErr_errInfo (code : BitVec 4) (info index : Word) : (s.writeErr code info index).errInfo = info := rfl
@[simp] theorem State.writeErr_errIndex (code : BitVec 4) (info index : Word) : (s.writeErr code info index).errIndex = index := rfl
@[simp] theorem State.writeErr_ftabLen (code : BitVec 4) (info index : Word) : (s.writeErr code info index).ftabLen = s.ftabLen := rfl
@[simp] theorem State.writeErr_srcLen (code : BitVec 4) (info index : Word) : (s.writeErr code info index).srcLen = s.srcLen := rfl
@[simp] theorem State.writeErr_nodeCount (code : BitVec 4) (info index : Word) : (s.writeErr code info index).nodeCount = s.nodeCount := rfl
@[simp] theorem State.writeErr_rootCntLo (code : BitVec 4) (info index : Word) : (s.writeErr code info index).rootCntLo = s.rootCntLo := rfl
@[simp] theorem State.writeErr_rootCntHi (code : BitVec 4) (info index : Word) : (s.writeErr code info index).rootCntHi = s.rootCntHi := rfl
@[simp] theorem State.writeErr_hdrBitLen (code : BitVec 4) (info index : Word) : (s.writeErr code info index).hdrBitLen = s.hdrBitLen := rfl
@[simp] theorem State.writeErr_outBitLen (code : BitVec 4) (info index : Word) : (s.writeErr code info index).outBitLen = s.outBitLen := rfl
@[simp] theorem State.writeErr_cmdLatch (code : BitVec 4) (info index : Word) : (s.writeErr code info index).cmdLatch = s.cmdLatch := rfl
@[simp] theorem State.writeErr_ftabSym (code : BitVec 4) (info index : Word) : (s.writeErr code info index).ftabSym = s.ftabSym := rfl
@[simp] theorem State.writeErr_ftabCnt (code : BitVec 4) (info index : Word) : (s.writeErr code info index).ftabCnt = s.ftabCnt := rfl
@[simp] theorem State.writeErr_node (code : BitVec 4) (info index : Word) : (s.writeErr code info index).node = s.node := rfl
@[simp] theorem State.writeErr_ctab (code : BitVec 4) (info index : Word) : (s.writeErr code info index).ctab = s.ctab := rfl
@[simp] theorem State.writeErr_src (code : BitVec 4) (info index : Word) : (s.writeErr code info index).src = s.src := rfl
@[simp] theorem State.writeErr_out (code : BitVec 4) (info index : Word) : (s.writeErr code info index).out = s.out := rfl

/-! ### State.endCommand -/

@[simp] theorem State.endCommand_params : (s.endCommand).params = s.params := rfl
@[simp] theorem State.endCommand_resets : (s.endCommand).resets = s.resets := rfl
@[simp] theorem State.endCommand_draws : (s.endCommand).draws = s.draws := rfl
@[simp] theorem State.endCommand_inbox : (s.endCommand).inbox = s.inbox := rfl
@[simp] theorem State.endCommand_answer : (s.endCommand).answer = s.answer := rfl
@[simp] theorem State.endCommand_ie : (s.endCommand).ie = s.ie := rfl
@[simp] theorem State.endCommand_busy : (s.endCommand).busy = false := rfl
@[simp] theorem State.endCommand_done : (s.endCommand).done = true := rfl
@[simp] theorem State.endCommand_treeValid : (s.endCommand).treeValid = s.treeValid := rfl
@[simp] theorem State.endCommand_codesValid : (s.endCommand).codesValid = s.codesValid := rfl
@[simp] theorem State.endCommand_outValid : (s.endCommand).outValid = s.outValid := rfl
@[simp] theorem State.endCommand_ovr : (s.endCommand).ovr = s.ovr := rfl
@[simp] theorem State.endCommand_err : (s.endCommand).err = s.err := rfl
@[simp] theorem State.endCommand_errInfo : (s.endCommand).errInfo = s.errInfo := rfl
@[simp] theorem State.endCommand_errIndex : (s.endCommand).errIndex = s.errIndex := rfl
@[simp] theorem State.endCommand_ftabLen : (s.endCommand).ftabLen = s.ftabLen := rfl
@[simp] theorem State.endCommand_srcLen : (s.endCommand).srcLen = s.srcLen := rfl
@[simp] theorem State.endCommand_nodeCount : (s.endCommand).nodeCount = s.nodeCount := rfl
@[simp] theorem State.endCommand_rootCntLo : (s.endCommand).rootCntLo = s.rootCntLo := rfl
@[simp] theorem State.endCommand_rootCntHi : (s.endCommand).rootCntHi = s.rootCntHi := rfl
@[simp] theorem State.endCommand_hdrBitLen : (s.endCommand).hdrBitLen = s.hdrBitLen := rfl
@[simp] theorem State.endCommand_outBitLen : (s.endCommand).outBitLen = s.outBitLen := rfl
@[simp] theorem State.endCommand_cmdLatch : (s.endCommand).cmdLatch = s.cmdLatch := rfl
@[simp] theorem State.endCommand_ftabSym : (s.endCommand).ftabSym = s.ftabSym := rfl
@[simp] theorem State.endCommand_ftabCnt : (s.endCommand).ftabCnt = s.ftabCnt := rfl
@[simp] theorem State.endCommand_node : (s.endCommand).node = s.node := rfl
@[simp] theorem State.endCommand_ctab : (s.endCommand).ctab = s.ctab := rfl
@[simp] theorem State.endCommand_src : (s.endCommand).src = s.src := rfl
@[simp] theorem State.endCommand_out : (s.endCommand).out = s.out := rfl

/-! ### State.succeed -/

@[simp] theorem State.succeed_params : (s.succeed).params = s.params := rfl
@[simp] theorem State.succeed_resets : (s.succeed).resets = s.resets := rfl
@[simp] theorem State.succeed_draws : (s.succeed).draws = s.draws := rfl
@[simp] theorem State.succeed_inbox : (s.succeed).inbox = s.inbox := rfl
@[simp] theorem State.succeed_answer : (s.succeed).answer = s.answer := rfl
@[simp] theorem State.succeed_ie : (s.succeed).ie = s.ie := rfl
@[simp] theorem State.succeed_busy : (s.succeed).busy = false := rfl
@[simp] theorem State.succeed_done : (s.succeed).done = true := rfl
@[simp] theorem State.succeed_treeValid : (s.succeed).treeValid = s.treeValid := rfl
@[simp] theorem State.succeed_codesValid : (s.succeed).codesValid = s.codesValid := rfl
@[simp] theorem State.succeed_outValid : (s.succeed).outValid = s.outValid := rfl
@[simp] theorem State.succeed_ovr : (s.succeed).ovr = s.ovr := rfl
@[simp] theorem State.succeed_err : (s.succeed).err = 0 := rfl
@[simp] theorem State.succeed_errInfo : (s.succeed).errInfo = 0 := rfl
@[simp] theorem State.succeed_errIndex : (s.succeed).errIndex = 0 := rfl
@[simp] theorem State.succeed_ftabLen : (s.succeed).ftabLen = s.ftabLen := rfl
@[simp] theorem State.succeed_srcLen : (s.succeed).srcLen = s.srcLen := rfl
@[simp] theorem State.succeed_nodeCount : (s.succeed).nodeCount = s.nodeCount := rfl
@[simp] theorem State.succeed_rootCntLo : (s.succeed).rootCntLo = s.rootCntLo := rfl
@[simp] theorem State.succeed_rootCntHi : (s.succeed).rootCntHi = s.rootCntHi := rfl
@[simp] theorem State.succeed_hdrBitLen : (s.succeed).hdrBitLen = s.hdrBitLen := rfl
@[simp] theorem State.succeed_outBitLen : (s.succeed).outBitLen = s.outBitLen := rfl
@[simp] theorem State.succeed_cmdLatch : (s.succeed).cmdLatch = s.cmdLatch := rfl
@[simp] theorem State.succeed_ftabSym : (s.succeed).ftabSym = s.ftabSym := rfl
@[simp] theorem State.succeed_ftabCnt : (s.succeed).ftabCnt = s.ftabCnt := rfl
@[simp] theorem State.succeed_node : (s.succeed).node = s.node := rfl
@[simp] theorem State.succeed_ctab : (s.succeed).ctab = s.ctab := rfl
@[simp] theorem State.succeed_src : (s.succeed).src = s.src := rfl
@[simp] theorem State.succeed_out : (s.succeed).out = s.out := rfl

/-! ### State.fail -/

@[simp] theorem State.fail_params (e : CmdError) : (s.fail e).params = s.params := rfl
@[simp] theorem State.fail_resets (e : CmdError) : (s.fail e).resets = s.resets := rfl
@[simp] theorem State.fail_draws (e : CmdError) : (s.fail e).draws = s.draws := rfl
@[simp] theorem State.fail_inbox (e : CmdError) : (s.fail e).inbox = s.inbox := rfl
@[simp] theorem State.fail_answer (e : CmdError) : (s.fail e).answer = s.answer := rfl
@[simp] theorem State.fail_ie (e : CmdError) : (s.fail e).ie = s.ie := rfl
@[simp] theorem State.fail_busy (e : CmdError) : (s.fail e).busy = false := rfl
@[simp] theorem State.fail_done (e : CmdError) : (s.fail e).done = true := rfl
@[simp] theorem State.fail_treeValid (e : CmdError) : (s.fail e).treeValid = s.treeValid := rfl
@[simp] theorem State.fail_codesValid (e : CmdError) : (s.fail e).codesValid = s.codesValid := rfl
@[simp] theorem State.fail_outValid (e : CmdError) : (s.fail e).outValid = s.outValid := rfl
@[simp] theorem State.fail_ovr (e : CmdError) : (s.fail e).ovr = s.ovr := rfl
@[simp] theorem State.fail_err (e : CmdError) : (s.fail e).err = errorCode e.name := rfl
@[simp] theorem State.fail_errInfo (e : CmdError) : (s.fail e).errInfo = e.info := rfl
@[simp] theorem State.fail_errIndex (e : CmdError) : (s.fail e).errIndex = e.index := rfl
@[simp] theorem State.fail_ftabLen (e : CmdError) : (s.fail e).ftabLen = s.ftabLen := rfl
@[simp] theorem State.fail_srcLen (e : CmdError) : (s.fail e).srcLen = s.srcLen := rfl
@[simp] theorem State.fail_nodeCount (e : CmdError) : (s.fail e).nodeCount = s.nodeCount := rfl
@[simp] theorem State.fail_rootCntLo (e : CmdError) : (s.fail e).rootCntLo = s.rootCntLo := rfl
@[simp] theorem State.fail_rootCntHi (e : CmdError) : (s.fail e).rootCntHi = s.rootCntHi := rfl
@[simp] theorem State.fail_hdrBitLen (e : CmdError) : (s.fail e).hdrBitLen = s.hdrBitLen := rfl
@[simp] theorem State.fail_outBitLen (e : CmdError) : (s.fail e).outBitLen = s.outBitLen := rfl
@[simp] theorem State.fail_cmdLatch (e : CmdError) : (s.fail e).cmdLatch = s.cmdLatch := rfl
@[simp] theorem State.fail_ftabSym (e : CmdError) : (s.fail e).ftabSym = s.ftabSym := rfl
@[simp] theorem State.fail_ftabCnt (e : CmdError) : (s.fail e).ftabCnt = s.ftabCnt := rfl
@[simp] theorem State.fail_node (e : CmdError) : (s.fail e).node = s.node := rfl
@[simp] theorem State.fail_ctab (e : CmdError) : (s.fail e).ctab = s.ctab := rfl
@[simp] theorem State.fail_src (e : CmdError) : (s.fail e).src = s.src := rfl
@[simp] theorem State.fail_out (e : CmdError) : (s.fail e).out = s.out := rfl

/-! ### State.writeStatus -/

@[simp] theorem State.writeStatus_params (v : Word) : (s.writeStatus v).params = s.params := rfl
@[simp] theorem State.writeStatus_resets (v : Word) : (s.writeStatus v).resets = s.resets := rfl
@[simp] theorem State.writeStatus_draws (v : Word) : (s.writeStatus v).draws = s.draws := rfl
@[simp] theorem State.writeStatus_inbox (v : Word) : (s.writeStatus v).inbox = s.inbox := rfl
@[simp] theorem State.writeStatus_answer (v : Word) : (s.writeStatus v).answer = s.answer := rfl
@[simp] theorem State.writeStatus_ie (v : Word) : (s.writeStatus v).ie = s.ie := rfl
@[simp] theorem State.writeStatus_busy (v : Word) : (s.writeStatus v).busy = s.busy := rfl
@[simp] theorem State.writeStatus_done (v : Word) : (s.writeStatus v).done = (s.done && !v.getLsbD 1) := rfl
@[simp] theorem State.writeStatus_treeValid (v : Word) : (s.writeStatus v).treeValid = s.treeValid := rfl
@[simp] theorem State.writeStatus_codesValid (v : Word) : (s.writeStatus v).codesValid = s.codesValid := rfl
@[simp] theorem State.writeStatus_outValid (v : Word) : (s.writeStatus v).outValid = s.outValid := rfl
@[simp] theorem State.writeStatus_ovr (v : Word) : (s.writeStatus v).ovr = (s.ovr && !v.getLsbD 6) := rfl
@[simp] theorem State.writeStatus_err (v : Word) : (s.writeStatus v).err = s.err := rfl
@[simp] theorem State.writeStatus_errInfo (v : Word) : (s.writeStatus v).errInfo = s.errInfo := rfl
@[simp] theorem State.writeStatus_errIndex (v : Word) : (s.writeStatus v).errIndex = s.errIndex := rfl
@[simp] theorem State.writeStatus_ftabLen (v : Word) : (s.writeStatus v).ftabLen = s.ftabLen := rfl
@[simp] theorem State.writeStatus_srcLen (v : Word) : (s.writeStatus v).srcLen = s.srcLen := rfl
@[simp] theorem State.writeStatus_nodeCount (v : Word) : (s.writeStatus v).nodeCount = s.nodeCount := rfl
@[simp] theorem State.writeStatus_rootCntLo (v : Word) : (s.writeStatus v).rootCntLo = s.rootCntLo := rfl
@[simp] theorem State.writeStatus_rootCntHi (v : Word) : (s.writeStatus v).rootCntHi = s.rootCntHi := rfl
@[simp] theorem State.writeStatus_hdrBitLen (v : Word) : (s.writeStatus v).hdrBitLen = s.hdrBitLen := rfl
@[simp] theorem State.writeStatus_outBitLen (v : Word) : (s.writeStatus v).outBitLen = s.outBitLen := rfl
@[simp] theorem State.writeStatus_cmdLatch (v : Word) : (s.writeStatus v).cmdLatch = s.cmdLatch := rfl
@[simp] theorem State.writeStatus_ftabSym (v : Word) : (s.writeStatus v).ftabSym = s.ftabSym := rfl
@[simp] theorem State.writeStatus_ftabCnt (v : Word) : (s.writeStatus v).ftabCnt = s.ftabCnt := rfl
@[simp] theorem State.writeStatus_node (v : Word) : (s.writeStatus v).node = s.node := rfl
@[simp] theorem State.writeStatus_ctab (v : Word) : (s.writeStatus v).ctab = s.ctab := rfl
@[simp] theorem State.writeStatus_src (v : Word) : (s.writeStatus v).src = s.src := rfl
@[simp] theorem State.writeStatus_out (v : Word) : (s.writeStatus v).out = s.out := rfl

/-! ### State.writeCtrl -/

@[simp] theorem State.writeCtrl_params (v : Word) : (s.writeCtrl v).params = s.params := rfl
@[simp] theorem State.writeCtrl_resets (v : Word) : (s.writeCtrl v).resets = s.resets := rfl
@[simp] theorem State.writeCtrl_draws (v : Word) : (s.writeCtrl v).draws = s.draws := rfl
@[simp] theorem State.writeCtrl_inbox (v : Word) : (s.writeCtrl v).inbox = s.inbox := rfl
@[simp] theorem State.writeCtrl_answer (v : Word) : (s.writeCtrl v).answer = s.answer := rfl
@[simp] theorem State.writeCtrl_ie (v : Word) : (s.writeCtrl v).ie = v.getLsbD 0 := rfl
@[simp] theorem State.writeCtrl_busy (v : Word) : (s.writeCtrl v).busy = s.busy := rfl
@[simp] theorem State.writeCtrl_done (v : Word) : (s.writeCtrl v).done = s.done := rfl
@[simp] theorem State.writeCtrl_treeValid (v : Word) : (s.writeCtrl v).treeValid = s.treeValid := rfl
@[simp] theorem State.writeCtrl_codesValid (v : Word) : (s.writeCtrl v).codesValid = s.codesValid := rfl
@[simp] theorem State.writeCtrl_outValid (v : Word) : (s.writeCtrl v).outValid = s.outValid := rfl
@[simp] theorem State.writeCtrl_ovr (v : Word) : (s.writeCtrl v).ovr = s.ovr := rfl
@[simp] theorem State.writeCtrl_err (v : Word) : (s.writeCtrl v).err = s.err := rfl
@[simp] theorem State.writeCtrl_errInfo (v : Word) : (s.writeCtrl v).errInfo = s.errInfo := rfl
@[simp] theorem State.writeCtrl_errIndex (v : Word) : (s.writeCtrl v).errIndex = s.errIndex := rfl
@[simp] theorem State.writeCtrl_ftabLen (v : Word) : (s.writeCtrl v).ftabLen = s.ftabLen := rfl
@[simp] theorem State.writeCtrl_srcLen (v : Word) : (s.writeCtrl v).srcLen = s.srcLen := rfl
@[simp] theorem State.writeCtrl_nodeCount (v : Word) : (s.writeCtrl v).nodeCount = s.nodeCount := rfl
@[simp] theorem State.writeCtrl_rootCntLo (v : Word) : (s.writeCtrl v).rootCntLo = s.rootCntLo := rfl
@[simp] theorem State.writeCtrl_rootCntHi (v : Word) : (s.writeCtrl v).rootCntHi = s.rootCntHi := rfl
@[simp] theorem State.writeCtrl_hdrBitLen (v : Word) : (s.writeCtrl v).hdrBitLen = s.hdrBitLen := rfl
@[simp] theorem State.writeCtrl_outBitLen (v : Word) : (s.writeCtrl v).outBitLen = s.outBitLen := rfl
@[simp] theorem State.writeCtrl_cmdLatch (v : Word) : (s.writeCtrl v).cmdLatch = s.cmdLatch := rfl
@[simp] theorem State.writeCtrl_ftabSym (v : Word) : (s.writeCtrl v).ftabSym = s.ftabSym := rfl
@[simp] theorem State.writeCtrl_ftabCnt (v : Word) : (s.writeCtrl v).ftabCnt = s.ftabCnt := rfl
@[simp] theorem State.writeCtrl_node (v : Word) : (s.writeCtrl v).node = s.node := rfl
@[simp] theorem State.writeCtrl_ctab (v : Word) : (s.writeCtrl v).ctab = s.ctab := rfl
@[simp] theorem State.writeCtrl_src (v : Word) : (s.writeCtrl v).src = s.src := rfl
@[simp] theorem State.writeCtrl_out (v : Word) : (s.writeCtrl v).out = s.out := rfl

/-! ### State.answerRead -/

@[simp] theorem State.answerRead_params (r : BusResponse) (data : Word) : (s.answerRead r data).params = s.params := rfl
@[simp] theorem State.answerRead_resets (r : BusResponse) (data : Word) : (s.answerRead r data).resets = s.resets := rfl
@[simp] theorem State.answerRead_draws (r : BusResponse) (data : Word) : (s.answerRead r data).draws = s.draws := rfl
@[simp] theorem State.answerRead_inbox (r : BusResponse) (data : Word) : (s.answerRead r data).inbox = s.inbox := rfl
@[simp] theorem State.answerRead_answer (r : BusResponse) (data : Word) : (s.answerRead r data).answer = some (.readAnswer r data) := rfl
@[simp] theorem State.answerRead_ie (r : BusResponse) (data : Word) : (s.answerRead r data).ie = s.ie := rfl
@[simp] theorem State.answerRead_busy (r : BusResponse) (data : Word) : (s.answerRead r data).busy = s.busy := rfl
@[simp] theorem State.answerRead_done (r : BusResponse) (data : Word) : (s.answerRead r data).done = s.done := rfl
@[simp] theorem State.answerRead_treeValid (r : BusResponse) (data : Word) : (s.answerRead r data).treeValid = s.treeValid := rfl
@[simp] theorem State.answerRead_codesValid (r : BusResponse) (data : Word) : (s.answerRead r data).codesValid = s.codesValid := rfl
@[simp] theorem State.answerRead_outValid (r : BusResponse) (data : Word) : (s.answerRead r data).outValid = s.outValid := rfl
@[simp] theorem State.answerRead_ovr (r : BusResponse) (data : Word) : (s.answerRead r data).ovr = s.ovr := rfl
@[simp] theorem State.answerRead_err (r : BusResponse) (data : Word) : (s.answerRead r data).err = s.err := rfl
@[simp] theorem State.answerRead_errInfo (r : BusResponse) (data : Word) : (s.answerRead r data).errInfo = s.errInfo := rfl
@[simp] theorem State.answerRead_errIndex (r : BusResponse) (data : Word) : (s.answerRead r data).errIndex = s.errIndex := rfl
@[simp] theorem State.answerRead_ftabLen (r : BusResponse) (data : Word) : (s.answerRead r data).ftabLen = s.ftabLen := rfl
@[simp] theorem State.answerRead_srcLen (r : BusResponse) (data : Word) : (s.answerRead r data).srcLen = s.srcLen := rfl
@[simp] theorem State.answerRead_nodeCount (r : BusResponse) (data : Word) : (s.answerRead r data).nodeCount = s.nodeCount := rfl
@[simp] theorem State.answerRead_rootCntLo (r : BusResponse) (data : Word) : (s.answerRead r data).rootCntLo = s.rootCntLo := rfl
@[simp] theorem State.answerRead_rootCntHi (r : BusResponse) (data : Word) : (s.answerRead r data).rootCntHi = s.rootCntHi := rfl
@[simp] theorem State.answerRead_hdrBitLen (r : BusResponse) (data : Word) : (s.answerRead r data).hdrBitLen = s.hdrBitLen := rfl
@[simp] theorem State.answerRead_outBitLen (r : BusResponse) (data : Word) : (s.answerRead r data).outBitLen = s.outBitLen := rfl
@[simp] theorem State.answerRead_cmdLatch (r : BusResponse) (data : Word) : (s.answerRead r data).cmdLatch = s.cmdLatch := rfl
@[simp] theorem State.answerRead_ftabSym (r : BusResponse) (data : Word) : (s.answerRead r data).ftabSym = s.ftabSym := rfl
@[simp] theorem State.answerRead_ftabCnt (r : BusResponse) (data : Word) : (s.answerRead r data).ftabCnt = s.ftabCnt := rfl
@[simp] theorem State.answerRead_node (r : BusResponse) (data : Word) : (s.answerRead r data).node = s.node := rfl
@[simp] theorem State.answerRead_ctab (r : BusResponse) (data : Word) : (s.answerRead r data).ctab = s.ctab := rfl
@[simp] theorem State.answerRead_src (r : BusResponse) (data : Word) : (s.answerRead r data).src = s.src := rfl
@[simp] theorem State.answerRead_out (r : BusResponse) (data : Word) : (s.answerRead r data).out = s.out := rfl

/-! ### State.answerWrite -/

@[simp] theorem State.answerWrite_params (r : BusResponse) : (s.answerWrite r).params = s.params := rfl
@[simp] theorem State.answerWrite_resets (r : BusResponse) : (s.answerWrite r).resets = s.resets := rfl
@[simp] theorem State.answerWrite_draws (r : BusResponse) : (s.answerWrite r).draws = s.draws := rfl
@[simp] theorem State.answerWrite_inbox (r : BusResponse) : (s.answerWrite r).inbox = s.inbox := rfl
@[simp] theorem State.answerWrite_answer (r : BusResponse) : (s.answerWrite r).answer = some (.writeAnswer r) := rfl
@[simp] theorem State.answerWrite_ie (r : BusResponse) : (s.answerWrite r).ie = s.ie := rfl
@[simp] theorem State.answerWrite_busy (r : BusResponse) : (s.answerWrite r).busy = s.busy := rfl
@[simp] theorem State.answerWrite_done (r : BusResponse) : (s.answerWrite r).done = s.done := rfl
@[simp] theorem State.answerWrite_treeValid (r : BusResponse) : (s.answerWrite r).treeValid = s.treeValid := rfl
@[simp] theorem State.answerWrite_codesValid (r : BusResponse) : (s.answerWrite r).codesValid = s.codesValid := rfl
@[simp] theorem State.answerWrite_outValid (r : BusResponse) : (s.answerWrite r).outValid = s.outValid := rfl
@[simp] theorem State.answerWrite_ovr (r : BusResponse) : (s.answerWrite r).ovr = s.ovr := rfl
@[simp] theorem State.answerWrite_err (r : BusResponse) : (s.answerWrite r).err = s.err := rfl
@[simp] theorem State.answerWrite_errInfo (r : BusResponse) : (s.answerWrite r).errInfo = s.errInfo := rfl
@[simp] theorem State.answerWrite_errIndex (r : BusResponse) : (s.answerWrite r).errIndex = s.errIndex := rfl
@[simp] theorem State.answerWrite_ftabLen (r : BusResponse) : (s.answerWrite r).ftabLen = s.ftabLen := rfl
@[simp] theorem State.answerWrite_srcLen (r : BusResponse) : (s.answerWrite r).srcLen = s.srcLen := rfl
@[simp] theorem State.answerWrite_nodeCount (r : BusResponse) : (s.answerWrite r).nodeCount = s.nodeCount := rfl
@[simp] theorem State.answerWrite_rootCntLo (r : BusResponse) : (s.answerWrite r).rootCntLo = s.rootCntLo := rfl
@[simp] theorem State.answerWrite_rootCntHi (r : BusResponse) : (s.answerWrite r).rootCntHi = s.rootCntHi := rfl
@[simp] theorem State.answerWrite_hdrBitLen (r : BusResponse) : (s.answerWrite r).hdrBitLen = s.hdrBitLen := rfl
@[simp] theorem State.answerWrite_outBitLen (r : BusResponse) : (s.answerWrite r).outBitLen = s.outBitLen := rfl
@[simp] theorem State.answerWrite_cmdLatch (r : BusResponse) : (s.answerWrite r).cmdLatch = s.cmdLatch := rfl
@[simp] theorem State.answerWrite_ftabSym (r : BusResponse) : (s.answerWrite r).ftabSym = s.ftabSym := rfl
@[simp] theorem State.answerWrite_ftabCnt (r : BusResponse) : (s.answerWrite r).ftabCnt = s.ftabCnt := rfl
@[simp] theorem State.answerWrite_node (r : BusResponse) : (s.answerWrite r).node = s.node := rfl
@[simp] theorem State.answerWrite_ctab (r : BusResponse) : (s.answerWrite r).ctab = s.ctab := rfl
@[simp] theorem State.answerWrite_src (r : BusResponse) : (s.answerWrite r).src = s.src := rfl
@[simp] theorem State.answerWrite_out (r : BusResponse) : (s.answerWrite r).out = s.out := rfl

/-! ### State.readDraw -/

@[simp] theorem State.readDraw_params (n : BusSize) : (s.readDraw n).params = s.params := rfl
@[simp] theorem State.readDraw_resets (n : BusSize) : (s.readDraw n).resets = s.resets := rfl
@[simp] theorem State.readDraw_draws (n : BusSize) : (s.readDraw n).draws = s.draws + 1 := rfl
@[simp] theorem State.readDraw_inbox (n : BusSize) : (s.readDraw n).inbox = s.inbox := rfl
@[simp] theorem State.readDraw_answer (n : BusSize) : (s.readDraw n).answer = some (.readAnswer .okay (lowBytes n (Config.busyRead s.draws))) := rfl
@[simp] theorem State.readDraw_ie (n : BusSize) : (s.readDraw n).ie = s.ie := rfl
@[simp] theorem State.readDraw_busy (n : BusSize) : (s.readDraw n).busy = s.busy := rfl
@[simp] theorem State.readDraw_done (n : BusSize) : (s.readDraw n).done = s.done := rfl
@[simp] theorem State.readDraw_treeValid (n : BusSize) : (s.readDraw n).treeValid = s.treeValid := rfl
@[simp] theorem State.readDraw_codesValid (n : BusSize) : (s.readDraw n).codesValid = s.codesValid := rfl
@[simp] theorem State.readDraw_outValid (n : BusSize) : (s.readDraw n).outValid = s.outValid := rfl
@[simp] theorem State.readDraw_ovr (n : BusSize) : (s.readDraw n).ovr = s.ovr := rfl
@[simp] theorem State.readDraw_err (n : BusSize) : (s.readDraw n).err = s.err := rfl
@[simp] theorem State.readDraw_errInfo (n : BusSize) : (s.readDraw n).errInfo = s.errInfo := rfl
@[simp] theorem State.readDraw_errIndex (n : BusSize) : (s.readDraw n).errIndex = s.errIndex := rfl
@[simp] theorem State.readDraw_ftabLen (n : BusSize) : (s.readDraw n).ftabLen = s.ftabLen := rfl
@[simp] theorem State.readDraw_srcLen (n : BusSize) : (s.readDraw n).srcLen = s.srcLen := rfl
@[simp] theorem State.readDraw_nodeCount (n : BusSize) : (s.readDraw n).nodeCount = s.nodeCount := rfl
@[simp] theorem State.readDraw_rootCntLo (n : BusSize) : (s.readDraw n).rootCntLo = s.rootCntLo := rfl
@[simp] theorem State.readDraw_rootCntHi (n : BusSize) : (s.readDraw n).rootCntHi = s.rootCntHi := rfl
@[simp] theorem State.readDraw_hdrBitLen (n : BusSize) : (s.readDraw n).hdrBitLen = s.hdrBitLen := rfl
@[simp] theorem State.readDraw_outBitLen (n : BusSize) : (s.readDraw n).outBitLen = s.outBitLen := rfl
@[simp] theorem State.readDraw_cmdLatch (n : BusSize) : (s.readDraw n).cmdLatch = s.cmdLatch := rfl
@[simp] theorem State.readDraw_ftabSym (n : BusSize) : (s.readDraw n).ftabSym = s.ftabSym := rfl
@[simp] theorem State.readDraw_ftabCnt (n : BusSize) : (s.readDraw n).ftabCnt = s.ftabCnt := rfl
@[simp] theorem State.readDraw_node (n : BusSize) : (s.readDraw n).node = s.node := rfl
@[simp] theorem State.readDraw_ctab (n : BusSize) : (s.readDraw n).ctab = s.ctab := rfl
@[simp] theorem State.readDraw_src (n : BusSize) : (s.readDraw n).src = s.src := rfl
@[simp] theorem State.readDraw_out (n : BusSize) : (s.readDraw n).out = s.out := rfl

/-! ### State.withCommand -/

@[simp] theorem State.withCommand_params (w : Word) : (s.withCommand w).params = s.params := rfl
@[simp] theorem State.withCommand_resets (w : Word) : (s.withCommand w).resets = s.resets := rfl
@[simp] theorem State.withCommand_draws (w : Word) : (s.withCommand w).draws = s.draws := rfl
@[simp] theorem State.withCommand_inbox (w : Word) : (s.withCommand w).inbox = if s.inbox = [] then [] else .engineStep :: s.inbox := rfl
@[simp] theorem State.withCommand_answer (w : Word) : (s.withCommand w).answer = s.answer := rfl
@[simp] theorem State.withCommand_ie (w : Word) : (s.withCommand w).ie = s.ie := rfl
@[simp] theorem State.withCommand_busy (w : Word) : (s.withCommand w).busy = true := rfl
@[simp] theorem State.withCommand_done (w : Word) : (s.withCommand w).done = false := rfl
@[simp] theorem State.withCommand_treeValid (w : Word) : (s.withCommand w).treeValid = s.treeValid := rfl
@[simp] theorem State.withCommand_codesValid (w : Word) : (s.withCommand w).codesValid = s.codesValid := rfl
@[simp] theorem State.withCommand_outValid (w : Word) : (s.withCommand w).outValid = s.outValid := rfl
@[simp] theorem State.withCommand_ovr (w : Word) : (s.withCommand w).ovr = s.ovr := rfl
@[simp] theorem State.withCommand_err (w : Word) : (s.withCommand w).err = s.err := rfl
@[simp] theorem State.withCommand_errInfo (w : Word) : (s.withCommand w).errInfo = s.errInfo := rfl
@[simp] theorem State.withCommand_errIndex (w : Word) : (s.withCommand w).errIndex = s.errIndex := rfl
@[simp] theorem State.withCommand_ftabLen (w : Word) : (s.withCommand w).ftabLen = s.ftabLen := rfl
@[simp] theorem State.withCommand_srcLen (w : Word) : (s.withCommand w).srcLen = s.srcLen := rfl
@[simp] theorem State.withCommand_nodeCount (w : Word) : (s.withCommand w).nodeCount = s.nodeCount := rfl
@[simp] theorem State.withCommand_rootCntLo (w : Word) : (s.withCommand w).rootCntLo = s.rootCntLo := rfl
@[simp] theorem State.withCommand_rootCntHi (w : Word) : (s.withCommand w).rootCntHi = s.rootCntHi := rfl
@[simp] theorem State.withCommand_hdrBitLen (w : Word) : (s.withCommand w).hdrBitLen = s.hdrBitLen := rfl
@[simp] theorem State.withCommand_outBitLen (w : Word) : (s.withCommand w).outBitLen = s.outBitLen := rfl
@[simp] theorem State.withCommand_cmdLatch (w : Word) : (s.withCommand w).cmdLatch = w := rfl
@[simp] theorem State.withCommand_ftabSym (w : Word) : (s.withCommand w).ftabSym = s.ftabSym := rfl
@[simp] theorem State.withCommand_ftabCnt (w : Word) : (s.withCommand w).ftabCnt = s.ftabCnt := rfl
@[simp] theorem State.withCommand_node (w : Word) : (s.withCommand w).node = s.node := rfl
@[simp] theorem State.withCommand_ctab (w : Word) : (s.withCommand w).ctab = s.ctab := rfl
@[simp] theorem State.withCommand_src (w : Word) : (s.withCommand w).src = s.src := rfl
@[simp] theorem State.withCommand_out (w : Word) : (s.withCommand w).out = s.out := rfl

/-! ### State.onReset -/

@[simp] theorem State.onReset_params : s.onReset.params = s.params := rfl
@[simp] theorem State.onReset_resets : s.onReset.resets = s.resets + 1 := rfl
@[simp] theorem State.onReset_draws : s.onReset.draws = s.draws := rfl
@[simp] theorem State.onReset_inbox : s.onReset.inbox = s.inbox := rfl
@[simp] theorem State.onReset_answer : s.onReset.answer = s.answer := rfl
@[simp] theorem State.onReset_ie : s.onReset.ie = false := rfl
@[simp] theorem State.onReset_busy : s.onReset.busy = false := rfl
@[simp] theorem State.onReset_done : s.onReset.done = false := rfl
@[simp] theorem State.onReset_treeValid : s.onReset.treeValid = false := rfl
@[simp] theorem State.onReset_codesValid : s.onReset.codesValid = false := rfl
@[simp] theorem State.onReset_outValid : s.onReset.outValid = false := rfl
@[simp] theorem State.onReset_ovr : s.onReset.ovr = false := rfl
@[simp] theorem State.onReset_err : s.onReset.err = 0 := rfl
@[simp] theorem State.onReset_errInfo : s.onReset.errInfo = 0 := rfl
@[simp] theorem State.onReset_errIndex : s.onReset.errIndex = 0 := rfl
@[simp] theorem State.onReset_ftabLen : s.onReset.ftabLen = 0 := rfl
@[simp] theorem State.onReset_srcLen : s.onReset.srcLen = 0 := rfl
@[simp] theorem State.onReset_nodeCount : s.onReset.nodeCount = 0 := rfl
@[simp] theorem State.onReset_rootCntLo : s.onReset.rootCntLo = 0 := rfl
@[simp] theorem State.onReset_rootCntHi : s.onReset.rootCntHi = 0 := rfl
@[simp] theorem State.onReset_hdrBitLen : s.onReset.hdrBitLen = 0 := rfl
@[simp] theorem State.onReset_outBitLen : s.onReset.outBitLen = 0 := rfl
@[simp] theorem State.onReset_cmdLatch : s.onReset.cmdLatch = 0 := rfl
@[simp] theorem State.onReset_ftabSym : s.onReset.ftabSym = [] := rfl
@[simp] theorem State.onReset_ftabCnt : s.onReset.ftabCnt = [] := rfl
@[simp] theorem State.onReset_node : s.onReset.node = [] := rfl
@[simp] theorem State.onReset_ctab : s.onReset.ctab = [] := rfl
@[simp] theorem State.onReset_src : s.onReset.src = [] := rfl
@[simp] theorem State.onReset_out : s.onReset.out = [] := rfl

end Sys2Proof.Machine
end

