-- ==== Sys2Proof/Laws/Table.lean ====
section
/-! SUPPORT. The laws of the array operations: what a cell reads after a write, and that every operation keeps the canonical
form and the size. -/

namespace Sys2Proof.Machine

variable {α : Type}

/-! ### Reads after writes -/

@[simp] theorem Table.find_nil (k : Nat) : Table.find ([] : Table α) k = none := rfl

theorem Table.find_cons (a : Nat) (v : α) (t : Table α) (k : Nat) :
    Table.find ((a, v) :: t) k = if k = a then some v else Table.find t k := rfl

@[simp] theorem Table.find_write_same (t : Table α) (k : Nat) (v : α) : Table.find (Table.write t k v) k = some v := by
  induction t with
  | nil => simp [Table.write, Table.find]
  | cons c t ih =>
    obtain ⟨a, w⟩ := c
    by_cases h₁ : k < a
    · simp [Table.write, h₁, Table.find]
    · by_cases h₂ : k = a <;> simp [Table.write, h₁, h₂, Table.find]
      exact ih

theorem Table.find_write_other (t : Table α) {j k : Nat} (v : α) (h : j ≠ k) :
    Table.find (Table.write t k v) j = Table.find t j := by
  induction t with
  | nil => simp [Table.write, Table.find, h]
  | cons c t ih =>
    obtain ⟨a, w⟩ := c
    by_cases h₁ : k < a
    · simp [Table.write, h₁, Table.find, h]
    · by_cases h₂ : k = a
      · subst h₂
        simp [Table.write, Table.find, h]
      · simp [Table.write, h₁, h₂, Table.find, ih]

theorem Table.find_write (t : Table α) (j k : Nat) (v : α) :
    Table.find (Table.write t k v) j = if j = k then some v else Table.find t j := by
  by_cases h : j = k
  · subst h; simp
  · simp [h, Table.find_write_other t v h]

theorem Table.find_append (t u : Table α) (k : Nat) :
    Table.find (t ++ u) k = (Table.find t k).or (Table.find u k) := by
  induction t with
  | nil => simp
  | cons c t ih =>
    obtain ⟨a, w⟩ := c
    by_cases h : k = a <;> simp [Table.find, h, ih]

theorem Table.find_number (k : Nat) (vs : List α) (j : Nat) :
    Table.find (Table.number k vs) j = if k ≤ j then vs[j - k]? else none := by
  induction vs generalizing k with
  | nil => simp [Table.number]
  | cons v vs ih =>
    by_cases h : j = k
    · simp [Table.number, Table.find, h]
    · simp only [Table.number, Table.find, if_neg h, ih]
      by_cases h₁ : k ≤ j
      · have h₂ : j - k = (j - (k + 1)) + 1 := by omega
        simp [h₁, show k + 1 ≤ j by omega, h₂]
      · simp [h₁, show ¬ k + 1 ≤ j by omega]

theorem Table.find_filter (t : Table α) (n k : Nat) (h : n ≤ k) :
    Table.find (t.filter fun c => decide (n ≤ c.1)) k = Table.find t k := by
  induction t with
  | nil => rfl
  | cons c t ih =>
    obtain ⟨a, w⟩ := c
    by_cases ha : n ≤ a
    · simp [ha, Table.find, ih]
    · simp [ha, Table.find, ih, show k ≠ a by omega]

theorem Table.find_filter_below (t : Table α) (n k : Nat) (h : k < n) :
    Table.find (t.filter fun c => decide (n ≤ c.1)) k = none := by
  induction t with
  | nil => rfl
  | cons c t ih =>
    obtain ⟨a, w⟩ := c
    by_cases ha : n ≤ a
    · simp [ha, Table.find, ih, show k ≠ a by omega]
    · simp [ha, ih]

/-- A span write gives the cells below its length their new values and leaves the others. -/
theorem Table.find_writeSpan (t : Table α) (vs : List α) (j : Nat) :
    Table.find (Table.writeSpan t vs) j = if j < vs.length then vs[j]? else Table.find t j := by
  unfold Table.writeSpan
  rw [Table.find_append, Table.find_number]
  by_cases h : j < vs.length
  · simp [h]
  · simp [h, Table.find_filter t vs.length j (by omega)]

/-! ### The canonical form and the size -/

theorem Table.mem_write {t : Table α} {k : Nat} {v : α} {c : Nat × α} (h : c ∈ Table.write t k v) :
    c = (k, v) ∨ c ∈ t := by
  induction t with
  | nil => simpa [Table.write] using h
  | cons d t ih =>
    obtain ⟨a, w⟩ := d
    unfold Table.write at h
    split at h
    · simpa using h
    · split at h
      · simp only [List.mem_cons] at h ⊢
        tauto
      · simp only [List.mem_cons] at h ⊢
        rcases h with h | h
        · tauto
        · rcases ih h with h | h <;> tauto

theorem Table.write_wf {t : Table α} (h : Table.wf t) (k : Nat) (v : α) : Table.wf (Table.write t k v) := by
  induction t with
  | nil => simp [Table.write]
  | cons d t ih =>
    obtain ⟨a, w⟩ := d
    obtain ⟨hd, ht⟩ := List.pairwise_cons.1 h
    unfold Table.write
    split
    · rename_i hk
      refine List.pairwise_cons.2 ⟨fun c hc => ?_, h⟩
      rcases List.mem_cons.1 hc with rfl | hc
      · exact hk
      · exact lt_trans hk (hd c hc)
    · split
      · rename_i hk
        subst hk
        exact List.pairwise_cons.2 ⟨hd, ht⟩
      · refine List.pairwise_cons.2 ⟨fun c hc => ?_, ih ht⟩
        rcases Table.mem_write hc with rfl | hc
        · show a < k
          omega
        · exact hd c hc

theorem Table.write_below {t : Table α} {n : Nat} (h : Table.below t n) {k : Nat} (hk : k < n) (v : α) :
    Table.below (Table.write t k v) n := by
  intro c hc
  rcases Table.mem_write hc with rfl | hc
  · exact hk
  · exact h c hc

theorem Table.mem_number {k : Nat} {vs : List α} {c : Nat × α} (h : c ∈ Table.number k vs) :
    k ≤ c.1 ∧ c.1 < k + vs.length := by
  induction vs generalizing k with
  | nil => simp [Table.number] at h
  | cons v vs ih =>
    rcases List.mem_cons.1 h with rfl | h
    · simp
    · have := ih h
      simp only [List.length_cons]
      omega

theorem Table.number_wf (k : Nat) (vs : List α) : Table.wf (Table.number k vs) := by
  induction vs generalizing k with
  | nil => simp [Table.number]
  | cons v vs ih =>
    refine List.pairwise_cons.2 ⟨fun c hc => ?_, ih (k + 1)⟩
    have := Table.mem_number hc
    show k < c.1
    omega

theorem Table.writeSpan_wf {t : Table α} (h : Table.wf t) (vs : List α) : Table.wf (Table.writeSpan t vs) := by
  refine List.pairwise_append.2 ⟨Table.number_wf 0 vs, List.Pairwise.filter _ h, fun c hc d hd => ?_⟩
  have h₁ := Table.mem_number hc
  have h₂ := (List.mem_filter.1 hd).2
  simp only [decide_eq_true_eq] at h₂
  omega

theorem Table.writeSpan_below {t : Table α} {n : Nat} (h : Table.below t n) {vs : List α} (hv : vs.length ≤ n) :
    Table.below (Table.writeSpan t vs) n := by
  intro c hc
  rcases List.mem_append.1 hc with hc | hc
  · have := Table.mem_number hc
    omega
  · exact h c (List.mem_filter.1 hc).1

/-! ### Storing the bytes of a word -/

theorem Memory.find_storeBytes (n : Nat) (m : Memory) (off : Nat) (v : Word) (j : Nat) :
    Table.find (Memory.storeBytes n m off v) j =
      if off ≤ j ∧ j < off + n then some ((v >>> (8 * (j - off))).setWidth 8) else Table.find m j := by
  induction n generalizing m off v with
  | zero => simp [Memory.storeBytes]
  | succ n ih =>
    simp only [Memory.storeBytes, ih, Table.find_write]
    by_cases h : off ≤ j ∧ j < off + (n + 1)
    · by_cases h₁ : j = off
      · subst h₁
        simp
      · have h₂ : j - off = (j - (off + 1)) + 1 := by omega
        rw [if_pos ⟨by omega, by omega⟩, if_pos h, ← BitVec.shiftRight_add]
        congr 3
        omega
    · rw [if_neg (by omega), if_neg (by omega), if_neg h]

theorem Memory.storeBytes_wf (n : Nat) {m : Memory} (h : Memory.wf m) (off : Nat) (v : Word) :
    Memory.wf (Memory.storeBytes n m off v) := by
  induction n generalizing m off v with
  | zero => exact h
  | succ n ih => exact ih (Table.write_wf h off _) _ _

theorem Memory.storeBytes_below (n : Nat) {m : Memory} {size : Nat} (h : Table.below m size) {off : Nat}
    (ho : off + n ≤ size) (v : Word) : Table.below (Memory.storeBytes n m off v) size := by
  induction n generalizing m off v with
  | zero => exact h
  | succ n ih => exact ih (Table.write_below h (by omega) _) (by omega) _

end Sys2Proof.Machine
end

