-- ==== Sys2Proof/Laws/Bits.lean ====
section
/-! SUPPORT. The laws of bit strings, codeword fields and byte order. -/

namespace Sys2Proof.Machine

@[simp] theorem msbBits_length (n v : Nat) : (msbBits n v).length = n := by simp [msbBits]

@[simp] theorem codeBits_length (e : CodeEntry) : (codeBits e).length = e.len.toNat := by simp [codeBits]

@[simp] theorem codeBits_absentEntry : codeBits absentEntry = [] := rfl

theorem codeField_getMsbD (p : Bits) (h : p.length ≤ 256) (k : Nat) :
    (codeField p).getMsbD k = p.getD k false := by
  unfold codeField
  have e : k + (256 - p.length) + p.length - 256 = k := by omega
  rw [BitVec.getMsbD_shiftLeft, BitVec.getMsbD_setWidth, e, BitVec.getMsbD_ofBoolListBE]
  simp

/-- The field of a codeword of at most 255 bits gives the codeword back (10_state.md R35). -/
theorem codeBits_validEntry (p : Bits) (h : p.length ≤ 255) : codeBits (validEntry p) = p := by
  have hl : (BitVec.ofNat 8 p.length).toNat = p.length := by
    rw [BitVec.toNat_ofNat]; omega
  apply List.ext_getElem
  · simp [validEntry, hl]
  · intro k h₁ h₂
    simp [codeBits, validEntry, codeField_getMsbD p (by omega), h₂]

@[simp] theorem validEntry_valid (p : Bits) : (validEntry p).valid = true := rfl

@[simp] theorem absentEntry_valid : absentEntry.valid = false := rfl

theorem validEntry_len (p : Bits) (h : p.length ≤ 255) : (validEntry p).len.toNat = p.length := by
  simp only [validEntry, BitVec.toNat_ofNat]; omega

/-- Stream bit 8j+k lands in bit 7-k of byte j (20_memory.md R56). -/
theorem packByte_getLsbD (s : Bits) (j k : Nat) (h : k < 8) :
    (packByte s j).getLsbD (7 - k) = s.getD (8 * j + k) false := by
  unfold packByte
  simp only [List.range_succ, List.range_zero, List.nil_append, List.cons_append, List.map_cons, List.map_nil,
    List.sum_cons, List.sum_nil]
  have hk : k = 0 ∨ k = 1 ∨ k = 2 ∨ k = 3 ∨ k = 4 ∨ k = 5 ∨ k = 6 ∨ k = 7 := by omega
  have e0 : 8 * j + 0 = 8 * j := rfl
  generalize hb0 : s.getD (8 * j) false = b0
  generalize hb1 : s.getD (8 * j + 1) false = b1
  generalize hb2 : s.getD (8 * j + 2) false = b2
  generalize hb3 : s.getD (8 * j + 3) false = b3
  generalize hb4 : s.getD (8 * j + 4) false = b4
  generalize hb5 : s.getD (8 * j + 5) false = b5
  generalize hb6 : s.getD (8 * j + 6) false = b6
  generalize hb7 : s.getD (8 * j + 7) false = b7
  rcases hk with rfl | rfl | rfl | rfl | rfl | rfl | rfl | rfl <;>
    simp only [e0, hb0, hb1, hb2, hb3, hb4, hb5, hb6, hb7] <;>
    clear hb0 hb1 hb2 hb3 hb4 hb5 hb6 hb7 <;>
    revert b0 b1 b2 b3 b4 b5 b6 b7 <;> decide

theorem sizeBytes_cases (n : BusSize) : sizeBytes n = 1 ∨ sizeBytes n = 2 ∨ sizeBytes n = 4 := by
  cases n <;> simp [sizeBytes]

/-- The value of a concatenation. -/
theorem append_toNat {n m : Nat} (x : BitVec n) (y : BitVec m) : (x ++ y).toNat = x.toNat * 2 ^ m + y.toNat := by
  rw [BitVec.toNat_append, Nat.shiftLeft_eq, Nat.mul_comm, ← Nat.two_pow_add_eq_or_of_lt y.isLt]

theorem sizeBytes_le (n : BusSize) : sizeBytes n ≤ 4 := by rcases sizeBytes_cases n with h | h | h <;> omega

/-- A little-endian word is the sum of its bytes (20_memory.md R55). -/
theorem leWord_toNat (get : Nat → Byte) (n off : Nat) (h : n ≤ 4) :
    (leWord get n off).toNat = ((List.range n).map fun k => (get (off + k)).toNat * 256 ^ k).sum ∧
    (leWord get n off).toNat < 256 ^ n := by
  induction n generalizing off with
  | zero => simp [leWord]
  | succ n ih =>
    obtain ⟨h1, h2⟩ := ih (off + 1) (by omega)
    have hb : (get off).toNat < 256 := (get off).isLt
    have hp : 256 ^ (n + 1) ≤ 2 ^ 32 := by
      calc 256 ^ (n + 1) ≤ 256 ^ 4 := Nat.pow_le_pow_right (by norm_num) h
        _ = 2 ^ 32 := by norm_num
    have hpe : 256 ^ (n + 1) = 256 ^ n * 256 := pow_succ _ _
    have e : (leWord get (n + 1) off).toNat = (leWord get n (off + 1)).toNat * 256 + (get off).toNat := by
      simp only [leWord, BitVec.toNat_or, BitVec.toNat_shiftLeft, BitVec.toNat_setWidth]
      rw [Nat.shiftLeft_eq, Nat.mod_eq_of_lt (by rw [show (2:Nat)^8 = 256 by norm_num]; omega), Nat.mod_eq_of_lt (a := (get off).toNat) (by omega)]
      have := Nat.two_pow_add_eq_or_of_lt (i := 8) (b := (get off).toNat) hb (leWord get n (off + 1)).toNat
      rw [Nat.mul_comm _ (2^8), ← this]
    refine ⟨?_, by rw [e]; omega⟩
    rw [e, h1, List.range_succ_eq_map]
    simp only [List.map_cons, List.sum_cons, List.map_map, Nat.add_zero, pow_zero, Nat.mul_one]
    rw [← List.sum_map_mul_right, Nat.add_comm]
    congr 2
    apply List.map_congr_left
    intro k _
    simp only [Function.comp]
    rw [show off + 1 + k = off + k.succ by omega, pow_succ, Nat.mul_assoc]

end Sys2Proof.Machine
end

