-- ==== Sys2Proof/Laws/Tree.lean ====
section
/-! SUPPORT. The laws of trees as data, and of a node store that holds one. -/

namespace Sys2Proof.Safety

open Sys2Proof.Machine

theorem size_pos (t : HTree) : 1 ≤ size t := by cases t <;> simp [size]

theorem symbols_length_pos (t : HTree) : 1 ≤ (symbols t).length := by
  induction t with
  | leaf b c => simp [symbols]
  | node l r ihl ihr => simp only [symbols, List.length_append]; omega

/-- A tree of n leaves has 2n - 1 nodes (41_tree_builder.md R97). -/
theorem size_eq (t : HTree) : size t + 1 = 2 * (symbols t).length := by
  induction t with
  | leaf b c => simp [size, symbols]
  | node l r ihl ihr => simp only [size, symbols, List.length_append]; omega

/-- A duplicate-free list of bytes has at most 256 members. -/
theorem length_le_of_nodup {l : List Byte} (h : l.Nodup) : l.length ≤ 256 := by
  have : Function.Injective (BitVec.toFin : Byte → Fin (2 ^ 8)) := fun x y e => BitVec.eq_of_toFin_eq e
  have h₁ : (l.map BitVec.toFin).Nodup := h.map this
  have := h₁.length_le_card
  simpa using this

/-- A store that agrees with another up to an index holds the same tree there. -/
theorem holdsTree_congr {f g : Nat → Node} {t : HTree} {i : Nat} (h : ∀ j, j ≤ i → f j = g j)
    (ht : HoldsTree f t i) : HoldsTree g t i := by
  induction t generalizing i with
  | leaf b c => exact ⟨by rw [← h i le_rfl]; exact ht.1, ht.2⟩
  | node l r ihl ihr =>
    obtain ⟨x, y, hx, hy, hw, hn, hl, hr⟩ := ht
    exact ⟨x, y, hx, hy, hw, by rw [← h i le_rfl]; exact hn, ihl (fun j hj => h j (by omega)) hl,
      ihr (fun j hj => h j (by omega)) hr⟩

/-- The count of the node at the root of a held tree is the tree's count. -/
theorem holdsTree_cnt {f : Nat → Node} {t : HTree} {i : Nat} (h : HoldsTree f t i) :
    (f i).cnt.toNat = weight t ∧ weight t < 2 ^ 40 := by
  cases t with
  | leaf b c =>
    obtain ⟨h, hc⟩ := h
    rw [h]
    simp only [weight, BitVec.toNat_ofNat]
    exact ⟨Nat.mod_eq_of_lt hc, hc⟩
  | node l r =>
    obtain ⟨x, y, hx, hy, hw, hn, -, -⟩ := h
    rw [hn]
    simp only [weight, BitVec.toNat_ofNat]
    exact ⟨Nat.mod_eq_of_lt hw, hw⟩

end Sys2Proof.Safety
end

