-- ==== Sys2Proof/Laws/Codes.lean ====
section
/-! SUPPORT. The laws of a tree's codewords: who has one, how long they are, and that none begins another. -/

namespace Sys2Proof.Safety

open Sys2Proof.Machine

/-- The longest path from the root to a leaf. -/
def depth : HTree → Nat
  | .leaf _ _ => 0
  | .node l r => max (depth l) (depth r) + 1

theorem depth_lt (t : HTree) : depth t + 1 ≤ (symbols t).length := by
  induction t with
  | leaf b c => simp [depth, symbols]
  | node l r ihl ihr =>
    have := symbols_length_pos l
    have := symbols_length_pos r
    simp only [depth, symbols, List.length_append]
    omega

theorem pathTo_isSome_iff (t : HTree) (c : Byte) : (pathTo t c).isSome = true ↔ c ∈ symbols t := by
  induction t with
  | leaf b w => simp only [pathTo, symbols, List.mem_singleton, eq_comm (a := c)]; split <;> simp_all
  | node l r ihl ihr =>
    simp only [pathTo, symbols, List.mem_append, ← ihl, ← ihr]
    cases pathTo l c <;> simp

theorem pathTo_eq_none_iff (t : HTree) (c : Byte) : pathTo t c = none ↔ c ∉ symbols t := by
  rw [← pathTo_isSome_iff, Option.not_isSome_iff_eq_none]

theorem pathTo_length {t : HTree} {c : Byte} {p : Bits} (h : pathTo t c = some p) : p.length ≤ depth t := by
  induction t generalizing p with
  | leaf b w =>
    simp only [pathTo] at h
    split at h
    · cases h; simp
    · cases h
  | node l r ihl ihr =>
    simp only [pathTo] at h
    cases hl : pathTo l c with
    | some q =>
      simp only [hl, Option.some.injEq] at h
      subst h
      have := ihl hl
      simp only [List.length_cons, depth]
      omega
    | none =>
      simp only [hl, Option.map_eq_some_iff] at h
      obtain ⟨q, hq, rfl⟩ := h
      have := ihr hq
      simp only [List.length_cons, depth]
      omega

/-- A path to a leaf begins no path to another leaf (42_code_assigner.md R109). -/
theorem pathTo_free {t : HTree} {a b : Byte} {p q : Bits} (ha : pathTo t a = some p) (hb : pathTo t b = some q)
    (h : p <+: q) : a = b := by
  induction t generalizing p q with
  | leaf c w =>
    simp only [pathTo] at ha hb
    split at ha <;> split at hb
    · rename_i h₁ h₂
      rw [← h₁, h₂]
    all_goals simp_all
  | node l r ihl ihr =>
    simp only [pathTo] at ha hb
    cases hla : pathTo l a <;> cases hlb : pathTo l b <;> simp only [hla, hlb] at ha hb
    · obtain ⟨p', hp, rfl⟩ := Option.map_eq_some_iff.1 ha
      obtain ⟨q', hq, rfl⟩ := Option.map_eq_some_iff.1 hb
      exact ihr hp hq (List.cons_prefix_cons.1 h).2
    · obtain ⟨p', hp, rfl⟩ := Option.map_eq_some_iff.1 ha
      cases hb
      simp [List.cons_prefix_cons] at h
    · obtain ⟨q', hq, rfl⟩ := Option.map_eq_some_iff.1 hb
      cases ha
      simp [List.cons_prefix_cons] at h
    · cases ha
      cases hb
      exact ihl hla hlb (List.cons_prefix_cons.1 h).2

theorem codeword_isSome_iff (t : HTree) (c : Byte) : (codeword t c).isSome = true ↔ c ∈ symbols t := by
  cases t with
  | leaf b w => simp only [codeword, symbols, List.mem_singleton, eq_comm (a := c)]; split <;> simp_all
  | node l r => exact pathTo_isSome_iff _ c

theorem codeword_free {t : HTree} {a b : Byte} {p q : Bits} (ha : codeword t a = some p) (hb : codeword t b = some q)
    (h : p <+: q) : a = b := by
  cases t with
  | leaf c w =>
    simp only [codeword] at ha hb
    split at ha <;> split at hb
    · rename_i h₁ h₂
      rw [← h₁, h₂]
    all_goals simp_all
  | node l r => exact pathTo_free ha hb h

theorem codeword_length_pos {t : HTree} {c : Byte} {p : Bits} (h : codeword t c = some p) : 1 ≤ p.length := by
  cases t with
  | leaf b w =>
    simp only [codeword] at h
    split at h
    · cases h; simp
    · cases h
  | node l r =>
    simp only [codeword, pathTo] at h
    cases hl : pathTo l c with
    | some q => simp only [hl, Option.some.injEq] at h; subst h; simp
    | none =>
      simp only [hl, Option.map_eq_some_iff] at h
      obtain ⟨q, -, rfl⟩ := h
      simp

/-- No codeword of a tree with distinct symbols is longer than 255 bits (42_code_assigner.md R107). -/
theorem codeword_length_le {t : HTree} (ht : (symbols t).Nodup) {c : Byte} {p : Bits} (h : codeword t c = some p) :
    p.length ≤ 255 := by
  cases t with
  | leaf b w =>
    simp only [codeword] at h
    split at h
    · cases h; simp
    · cases h
  | node l r =>
    have h₁ := pathTo_length h
    have h₂ := depth_lt (.node l r)
    have h₃ := length_le_of_nodup ht
    omega

theorem treeEntry_valid_iff (t : HTree) (c : Byte) : (treeEntry t c).valid = true ↔ c ∈ symbols t := by
  rw [← codeword_isSome_iff, treeEntry]
  cases codeword t c <;> simp

theorem treeEntry_bits {t : HTree} (ht : (symbols t).Nodup) (c : Byte) :
    codeBits (treeEntry t c) = (codeword t c).getD [] := by
  rw [treeEntry]
  cases h : codeword t c with
  | none => simp
  | some p => simpa using codeBits_validEntry p (codeword_length_le ht h)

/-! ### The sum of the codeword lengths -/

/-- The sum of `k` plus the path length over the symbols of a tree. -/
def pathSum (t : HTree) (k : Nat) : Nat :=
  ∑ c ∈ Finset.range 256, match pathTo t (BitVec.ofNat 8 c) with
    | some p => k + p.length
    | none => 0

theorem pathSum_leaf (b : Byte) (w k : Nat) : pathSum (.leaf b w) k = k := by
  unfold pathSum
  rw [Finset.sum_eq_single b.toNat]
  · simp [pathTo]
  · intro c hc hne
    have : b ≠ BitVec.ofNat 8 c := by
      rintro rfl
      rw [Finset.mem_range] at hc
      rw [BitVec.toNat_ofNat] at hne
      omega
    simp [pathTo, this]
  · intro h
    have : b.toNat < 256 := b.isLt
    simp at h
    omega

theorem pathSum_node {l r : HTree} (h : (symbols (.node l r)).Nodup) (k : Nat) :
    pathSum (.node l r) k = pathSum l (k + 1) + pathSum r (k + 1) := by
  unfold pathSum
  rw [← Finset.sum_add_distrib]
  refine Finset.sum_congr rfl fun c _ => ?_
  simp only [symbols] at h
  have hd := (List.nodup_append'.1 h).2.2
  cases hl : pathTo l (BitVec.ofNat 8 c) with
  | some p =>
    have : pathTo r (BitVec.ofNat 8 c) = none := by
      rw [pathTo_eq_none_iff]
      exact fun hr => hd ((pathTo_isSome_iff l _).1 (by simp [hl])) hr
    simp [pathTo, hl, this]
    omega
  | none =>
    cases hr : pathTo r (BitVec.ofNat 8 c) with
    | none => simp [pathTo, hl, hr]
    | some q => simp [pathTo, hl, hr]; omega

/-- The external path length of a tree of n leaves is at most (n-1)(n+2)/2 (43_bitstream_encoder.md R116). -/
theorem pathSum_le {t : HTree} (h : (symbols t).Nodup) (k : Nat) :
    2 * pathSum t k + 2 ≤ 2 * k * (symbols t).length + (symbols t).length * (symbols t).length + (symbols t).length := by
  induction t generalizing k with
  | leaf b w => rw [pathSum_leaf]; simp [symbols]
  | node l r ihl ihr =>
    rw [pathSum_node h]
    have hl := ihl (List.nodup_append'.1 h).1 (k + 1)
    have hr := ihr (List.nodup_append'.1 h).2.1 (k + 1)
    have pl := symbols_length_pos l
    have pr := symbols_length_pos r
    simp only [symbols, List.length_append]
    generalize (symbols l).length = a at *
    generalize (symbols r).length = b at *
    obtain ⟨a, rfl⟩ := Nat.exists_eq_add_of_le' pl
    obtain ⟨b, rfl⟩ := Nat.exists_eq_add_of_le' pr
    nlinarith

end Sys2Proof.Safety
end

