-- ==== Sys2Proof/Laws/Ops.lean ====
section
/-! SUPPORT. The laws of the completion of a command: all that `finish` can answer. -/

namespace Sys2Proof.Machine

theorem errorCode_ne_zero (e : ErrorName) : errorCode e ≠ 0 := by cases e <;> decide

theorem errorCode_le_seven (e : ErrorName) : (errorCode e).toNat ≤ 7 := by cases e <;> decide

@[simp] theorem finish_ok (s t : State) : finish s (.ok t) = .next t.succeed := rfl

@[simp] theorem finish_raised (s : State) (e : CmdError) : finish s (.error (.raised e)) = .next (s.fail e) := rfl

@[simp] theorem finish_raise (s : State) (name : ErrorName) (info index : Nat) :
    finish s (raise name info index) =
      .next (s.fail { name := name, info := BitVec.ofNat 32 info, index := BitVec.ofNat 32 index }) := rfl

/-- Where a completion gives a next state, the command succeeded or raised an error. -/
theorem finish_cases {s t : State} {r : Except CmdFail State} (h : finish s r = .next t) :
    (∃ u, r = .ok u ∧ t = u.succeed) ∨ (∃ e, r = .error (.raised e) ∧ t = s.fail e) := by
  match r, h with
  | .ok u, h => injection h with h; exact .inl ⟨u, rfl, h.symm⟩
  | .error (.raised e), h => injection h with h; exact .inr ⟨e, rfl, h.symm⟩
  | .error (.stopped f), h => cases h

theorem fail_err_ne_zero (s : State) (e : CmdError) : (s.fail e).err ≠ 0 := errorCode_ne_zero e.name

/-- A failed command changes only the error registers, BUSY and DONE (40_command_protocol.md R83). -/
theorem fail_frame (s : State) (e : CmdError) :
    s.fail e = { s with
      err := errorCode e.name, errInfo := e.info, errIndex := e.index, busy := false, done := true } := rfl

theorem succeed_frame (s : State) :
    s.succeed = { s with err := 0, errInfo := 0, errIndex := 0, busy := false, done := true } := rfl

/-- A success of the completion, from the error code of the next state. -/
theorem finish_success {s t : State} {r : Except CmdFail State} (h : finish s r = .next t) (he : t.err = 0) :
    ∃ u, r = .ok u ∧ t = u.succeed := by
  rcases finish_cases h with h | ⟨e, _, rfl⟩
  · exact h
  · exact absurd he (fail_err_ne_zero s e)

/-- An error of the completion, from the error code of the next state. -/
theorem finish_failure {s t : State} {r : Except CmdFail State} (h : finish s r = .next t) (he : t.err ≠ 0) :
    ∃ e, r = .error (.raised e) ∧ t = s.fail e := by
  rcases finish_cases h with ⟨u, _, rfl⟩ | h
  · exact absurd rfl he
  · exact h

@[simp] theorem completeIllegal_eq (s : State) :
    completeIllegal s = .next (s.fail { name := .illegalCommand, info := s.cmdLatch, index := 0 }) := rfl

end Sys2Proof.Machine
end

