-- ==== Sys2Proof/Laws/BuildCodes.lean ====
section
/-! SUPPORT. The laws of BUILD_CODES: what the traversal of a held tree records, and what the command makes of it. -/

namespace Sys2Proof.Machine

open Sys2Proof.Safety

/-- The leaves in traversal order, each with its path, the path so far in `p`. -/
def leafPaths : HTree → Bits → CodeList
  | .leaf b _, p => [(b, p)]
  | .node l r, p => leafPaths l (p ++ [false]) ++ leafPaths r (p ++ [true])

/-- The traversal of a held tree that is not too deep records each leaf with its path, last first
(42_code_assigner.md R104). -/
theorem visit_holds {s : State} {t : HTree} {i : Nat} (h : HoldsTree s.nodeAt t i) (hi : i < 511) {fuel : Nat}
    (hf : depth t < fuel) (p : Bits) (hp : p.length + depth t ≤ 255) (acc : CodeList) :
    visit s fuel i p acc = .ok ((leafPaths t p).reverse ++ acc) := by
  induction t generalizing i fuel p acc with
  | leaf b c =>
    obtain ⟨fuel, rfl⟩ := Nat.exists_eq_add_of_le' (show 1 ≤ fuel by omega)
    simp only [depth] at hp
    rw [visit, if_neg (by simp only [Config.maxNodes]; omega)]
    simp only [h.1, bne_self_eq_false, Bool.false_eq_true, if_false, if_true, Bool.true_eq_false, Config.maxCodeLen]
    rw [if_neg (by omega)]
    simp [leafPaths]
  | node l r ihl ihr =>
    obtain ⟨x, y, hx, hy, -, hn, hl, hr⟩ := h
    simp only [depth] at hf hp
    obtain ⟨fuel, rfl⟩ := Nat.exists_eq_add_of_le' (show 1 ≤ fuel by omega)
    rw [visit, if_neg (by simp only [Config.maxNodes]; omega)]
    simp only [hn, bne_self_eq_false, Bool.false_eq_true, if_false, Bool.true_eq_false]
    rw [ihl hl (by omega) (by omega) (p ++ [false]) (by simp; omega)]
    simp only
    rw [ihr hr (by omega) (by omega) (p ++ [true]) (by simp; omega)]
    simp [leafPaths]

theorem leafPaths_keys (t : HTree) (p : Bits) : (leafPaths t p).map (·.1) = symbols t := by
  induction t generalizing p with
  | leaf b c => rfl
  | node l r ihl ihr => simp [leafPaths, symbols, ihl, ihr]

/-- In a tree with distinct symbols the path recorded for a symbol is its path from the root. -/
theorem mem_leafPaths {t : HTree} (h : (symbols t).Nodup) (p : Bits) (b : Byte) (q : Bits) :
    (b, q) ∈ leafPaths t p ↔ ∃ r, pathTo t b = some r ∧ q = p ++ r := by
  induction t generalizing p with
  | leaf c w =>
    simp only [leafPaths, List.mem_singleton, Prod.mk.injEq, pathTo]
    by_cases hc : c = b
    · simp [hc]
    · simp [hc, Ne.symm hc]
  | node l r ihl ihr =>
    obtain ⟨nl, nr, nd⟩ := List.nodup_append'.1 h
    simp only [leafPaths, List.mem_append, ihl nl, ihr nr, pathTo, List.append_assoc, List.singleton_append]
    cases hl : pathTo l b with
    | some u =>
      have hr : pathTo r b = none := by
        rw [pathTo_eq_none_iff]
        exact fun hr => nd ((pathTo_isSome_iff l _).1 (by simp [hl])) hr
      simp [hr]
    | none =>
      cases hr : pathTo r b with
      | none => simp
      | some u => simp

theorem codeFor_eq_some_iff {l : CodeList} (h : (l.map (·.1)).Nodup) (b : Byte) (p : Bits) :
    codeFor l b = some p ↔ (b, p) ∈ l := by
  induction l with
  | nil => simp [codeFor]
  | cons x l ih =>
    obtain ⟨c, q⟩ := x
    simp only [List.map_cons, List.nodup_cons] at h
    by_cases hc : c = b
    · subst hc
      simp only [codeFor, if_true, Option.some.injEq, List.mem_cons, Prod.mk.injEq, true_and]
      constructor
      · exact fun e => .inl e.symm
      · rintro (e | e)
        · exact e.symm
        · exact absurd (List.mem_map.2 ⟨_, e, rfl⟩) h.1
    · simp [codeFor, hc, Ne.symm hc, ih h.2]

theorem codeFor_leafPaths {t : HTree} (h : (symbols t).Nodup) (b : Byte) :
    codeFor (leafPaths t []).reverse b = pathTo t b := by
  have hn : ((leafPaths t []).reverse.map (·.1)).Nodup := by
    rw [List.map_reverse, List.nodup_reverse, leafPaths_keys]
    exact h
  apply Option.ext
  intro p
  rw [codeFor_eq_some_iff hn, List.mem_reverse, mem_leafPaths h]
  simp

/-- The codewords of a held tree (42_code_assigner.md R104, R105). -/
theorem assignCodes_holds {s : State} {t : HTree} {r : Nat} (h : HoldsTree s.nodeAt t r) (hr : r < 511)
    (hs : (symbols t).Nodup) :
    ∃ codes, assignCodes s r = .ok codes ∧ ∀ b, codeFor codes b = codeword t b := by
  cases t with
  | leaf b c =>
    refine ⟨[(b, [false])], ?_, fun x => ?_⟩
    · simp [assignCodes, h.1]
    · by_cases hx : b = x <;> simp [codeFor, codeword, hx]
  | node l u =>
    refine ⟨(leafPaths (.node l u) []).reverse, ?_, fun x => codeFor_leafPaths hs x⟩
    have hd := depth_lt (.node l u)
    have hl := length_le_of_nodup hs
    have hv := visit_holds h hr (fuel := visitFuel) (by simp only [visitFuel, Config.maxNodes, Config.maxCodeLen]; omega)
      [] (by simp only [List.length_nil]; omega) []
    obtain ⟨x, y, -, -, -, hn, -, -⟩ := h
    simp [assignCodes, hn, hv]

/-- The result of BUILD_CODES with the codes `codes` (42_code_assigner.md R108). -/
def codedState (s : State) (codes : CodeList) : State :=
  { s with
    ctab := Table.writeSpan s.ctab (ctabImage codes)
    codesValid := true
    treeValid := false }

theorem ctabImage_length (codes : CodeList) : (ctabImage codes).length = 256 := by simp [ctabImage]

/-- CTAB after a successful BUILD_CODES: all 256 entries (42_code_assigner.md R108). -/
theorem codedState_ctabAt (s : State) (codes : CodeList) {c : Nat} (h : c < 256) :
    (codedState s codes).ctabAt c = entryFor codes c := by
  have : (ctabImage codes)[c]? = some (entryFor codes c) := by simp [ctabImage, h]
  unfold State.ctabAt codedState
  simp only [Table.find_writeSpan, ctabImage_length, h, if_true, this, Option.getD_some]

/-- All that BUILD_CODES can answer: SequenceError without a tree, the result of the traversal with one. -/
theorem buildCodes_cases (s : State) :
    (s.treeValid = false ∧ buildCodes s = raise .sequenceError 1 0) ∨
    (s.treeValid = true ∧ s.nodeCount = 0 ∧ buildCodes s = .error (.stopped .nodeIndexOutOfRange)) ∨
    (∃ e, s.treeValid = true ∧ s.nodeCount ≠ 0 ∧ assignCodes s (s.nodeCount.toNat - 1) = .error e ∧
      buildCodes s = .error e) ∨
    (∃ codes, s.treeValid = true ∧ s.nodeCount ≠ 0 ∧ assignCodes s (s.nodeCount.toNat - 1) = .ok codes ∧
      buildCodes s = .ok (codedState s codes)) := by
  unfold buildCodes
  by_cases h₁ : s.treeValid = false
  · exact .inl ⟨h₁, by simp [h₁]⟩
  · have h₁' : s.treeValid = true := by simpa using h₁
    by_cases h₂ : s.nodeCount = 0
    · exact .inr (.inl ⟨h₁', h₂, by simp [h₁', h₂]⟩)
    · cases h₃ : assignCodes s (s.nodeCount.toNat - 1) with
      | error e => exact .inr (.inr (.inl ⟨e, h₁', h₂, rfl, by rw [if_neg h₁, if_neg h₂]⟩))
      | ok codes => exact .inr (.inr (.inr ⟨codes, h₁', h₂, rfl, by rw [if_neg h₁, if_neg h₂]; rfl⟩))

/-- BUILD_CODES on a held tree gives its code table (42_code_assigner.md R104, R108). -/
theorem buildCodes_holds {s : State} {t : HTree} (hv : s.treeValid = true) (h : BlockHoldsTree s t) :
    ∃ codes, buildCodes s = .ok (codedState s codes) ∧
      ∀ c : Byte, (codedState s codes).ctabAt c.toNat = treeEntry t c := by
  obtain ⟨hsize, ht, hn, -⟩ := h
  have hs := size_eq t
  have hp := symbols_length_pos t
  have hl := length_le_of_nodup hn
  obtain ⟨codes, hc, hcode⟩ := assignCodes_holds ht (by omega) hn
  have hne : s.nodeCount ≠ 0 := by
    intro e
    rw [e] at hsize
    simp at hsize
    omega
  refine ⟨codes, ?_, fun c => ?_⟩
  · rcases buildCodes_cases s with ⟨h, -⟩ | ⟨-, h, -⟩ | ⟨e, -, -, h, -⟩ | ⟨codes', -, -, h, hb⟩
    · simp [hv] at h
    · exact absurd h hne
    · simp [hc] at h
    · rw [hc] at h
      cases h
      exact hb
  · rw [codedState_ctabAt s codes c.isLt, entryFor, BitVec.ofNat_toNat, BitVec.setWidth_eq, hcode, treeEntry] <;> rfl

theorem succeed_ctabAt (s : State) : s.succeed.ctabAt = s.ctabAt := rfl

theorem succeed_codeOf (s : State) : s.succeed.codeOf = s.codeOf := rfl

/-- The codewords of a code table are prefix-free and not empty (42_code_assigner.md R109). -/
theorem codes_prefix_free {s : State} {t : HTree} (h : BlockHoldsCodes s t) :
    (∀ a b : Byte, (s.ctabAt a.toNat).valid = true → (s.ctabAt b.toNat).valid = true → a ≠ b →
      ¬ s.codeOf a.toNat <+: s.codeOf b.toNat) ∧
    (∀ c : Byte, (s.ctabAt c.toNat).valid = true → 1 ≤ (s.codeOf c.toNat).length) := by
  obtain ⟨hn, hc⟩ := h
  have hcode : ∀ c : Byte, (s.ctabAt c.toNat).valid = true → ∃ p, codeword t c = some p ∧ s.codeOf c.toNat = p := by
    intro c hv
    rw [hc, treeEntry_valid_iff, ← codeword_isSome_iff] at hv
    obtain ⟨p, hp⟩ := Option.isSome_iff_exists.1 hv
    exact ⟨p, hp, by rw [State.codeOf, hc, treeEntry_bits hn, hp]; rfl⟩
  refine ⟨fun a b ha hb hab hpre => ?_, fun c hv => ?_⟩
  · obtain ⟨p, hp, ep⟩ := hcode a ha
    obtain ⟨q, hq, eq⟩ := hcode b hb
    rw [ep, eq] at hpre
    exact hab (codeword_free hp hq hpre)
  · obtain ⟨p, hp, ep⟩ := hcode c hv
    rw [ep]; exact codeword_length_pos hp

/-- The traversal reads NODE only. -/
theorem visit_congr {s t : State} (h : ∀ i, i ≤ 510 → s.nodeAt i = t.nodeAt i) (fuel i : Nat) (p : Bits) (acc : CodeList) :
   visit s fuel i p acc = visit t fuel i p acc := by
  induction fuel generalizing i p acc with
  | zero => rfl
  | succ f ih =>
    simp only [visit]
    split
    · rfl
    · rename_i hi
      simp only [Config.maxNodes] at hi
      rw [h i (by omega)]
      simp only [ih]

end Sys2Proof.Machine
end

