-- ==== Sys2Proof/Laws/BuildTree.lean ====
section
/-! SUPPORT. The laws of BUILD_TREE: what validation answers, what the working collection removes, and what the merge loop
makes of a valid table. -/

namespace Sys2Proof.Machine

open Sys2Proof.Safety

/-! ### Validation -/

/-- The entries before an index are positive and distinct, so the scan passes them. -/
theorem scanEntries_append (i : Nat) (seen : List Byte) (l m : List FreqEntry) (h₁ : ∀ e ∈ l, e.cnt ≠ 0)
    (h₂ : (l.map (·.sym)).Nodup) (h₃ : ∀ e ∈ l, e.sym ∉ seen) :
    scanEntries i seen (l ++ m) = scanEntries (i + l.length) ((l.map (·.sym)).reverse ++ seen) m := by
  induction l generalizing i seen with
  | nil => simp
  | cons e l ih =>
    simp only [List.map_cons, List.nodup_cons] at h₂
    have he : e.sym ∉ seen := h₃ e (by simp)
    rw [List.cons_append, scanEntries, if_neg (h₁ e (by simp)), if_neg he,
      ih (i + 1) (e.sym :: seen) (fun x hx => h₁ x (by simp [hx])) h₂.2]
    · rw [show i + 1 + l.length = i + (e :: l).length by simp; omega]
      simp
    · intro x hx hm
      rcases List.mem_cons.1 hm with hm | hm
      · exact h₂.1 (List.mem_map.2 ⟨x, hx, hm⟩)
      · exact h₃ x (by simp [hx]) hm

/-- The scan passes exactly the tables of positive counts and distinct symbols. -/
theorem scanEntries_ok_iff (i : Nat) (seen : List Byte) (l : List FreqEntry) :
    scanEntries i seen l = .ok () ↔
      (∀ e ∈ l, e.cnt ≠ 0) ∧ (l.map (·.sym)).Nodup ∧ ∀ e ∈ l, e.sym ∉ seen := by
  induction l generalizing i seen with
  | nil => simp [scanEntries]
  | cons e l ih =>
    unfold scanEntries
    split
    · rename_i h
      simp [raise, h]
    · split
      · rename_i h
        simp [raise, h]
      · rename_i h₁ h₂
        rw [ih]
        simp only [List.mem_cons, forall_eq_or_imp, List.map_cons, List.nodup_cons, List.mem_map, not_exists, not_and,
          not_or, h₁, h₂, ne_eq, not_false_eq_true, true_and]
        constructor
        · rintro ⟨a, b, c⟩
          exact ⟨a, ⟨fun x hx => (c x hx).1, b⟩, fun x hx => (c x hx).2⟩
        · rintro ⟨a, ⟨b, c⟩, d⟩
          exact ⟨a, c, fun x hx => ⟨b x hx, d x hx⟩⟩

theorem ftabList_length (s : State) (n : Nat) : (s.ftabList n).length = n := by simp [State.ftabList]

theorem ftabList_nodup_iff (s : State) (n : Nat) :
    ((s.ftabList n).map (·.sym)).Nodup ↔ ∀ i j, i < j → j < n → (s.ftabAt i).sym ≠ (s.ftabAt j).sym := by
  unfold State.ftabList
  rw [List.map_map, List.Nodup, List.pairwise_map, List.pairwise_iff_getElem]
  simp only [List.length_range, List.getElem_range, Function.comp]
  exact ⟨fun h i j hij hj => h i j (by omega) hj hij, fun h i j hi hj hij => h i j hij hj⟩

/-- Validation passes exactly the valid tables (41_tree_builder.md R92). -/
theorem validateTable_ok_iff (s : State) : validateTable s s.ftabLen.toNat = .ok () ↔ TableValid s := by
  unfold validateTable TableValid Config.maxEntries
  split
  · rename_i h
    simp [raise, h]
  · split
    · rename_i h
      simp only [raise, reduceCtorEq, false_iff]
      omega
    · rw [scanEntries_ok_iff, ftabList_nodup_iff]
      constructor
      · rintro ⟨h, h', -⟩
        exact ⟨by omega, by omega, fun i hi => h _ (List.mem_map.2 ⟨i, List.mem_range.2 hi, rfl⟩), h'⟩
      · rintro ⟨-, -, h, h'⟩
        refine ⟨fun e he => ?_, h', by simp⟩
        obtain ⟨i, hi, rfl⟩ := List.mem_map.1 he
        exact h i (List.mem_range.1 hi)

/-- The scan of a table up to the entry `i` whose predecessors are positive and distinct. -/
theorem validateTable_reaches (s : State) {n i : Nat} (hn : n ≤ 256) (hi : i < n)
    (h : ∀ j, j < i → (s.ftabAt j).cnt ≠ 0 ∧ ∀ k, k < j → (s.ftabAt k).sym ≠ (s.ftabAt j).sym) :
    validateTable s n =
      scanEntries i (((s.ftabList i).map (·.sym)).reverse) ((List.range' i (n - i)).map s.ftabAt) := by
  unfold validateTable Config.maxEntries
  rw [if_neg (by omega), if_neg (by omega)]
  have hs : s.ftabList n = s.ftabList i ++ (List.range' i (n - i)).map s.ftabAt := by
    unfold State.ftabList
    rw [← List.map_append, List.range_eq_range', List.range_eq_range']
    congr 1
    have := List.range'_append (s := 0) (m := i) (n := n - i) (step := 1)
    simp only [Nat.one_mul, Nat.zero_add] at this
    rw [this]
    congr 1
    omega
  rw [hs, scanEntries_append]
  · simp [ftabList_length]
  · intro e he
    obtain ⟨j, hj, rfl⟩ := List.mem_map.1 he
    exact (h j (List.mem_range.1 hj)).1
  · rw [ftabList_nodup_iff]
    exact fun a b hab hb => (h b hb).2 a hab
  · simp

/-! ### The working collection -/

theorem keyLess_iff (x y : WorkItem) :
    keyLess x y = true ↔ x.cnt.toNat < y.cnt.toNat ∨ (x.cnt.toNat = y.cnt.toNat ∧ x.idx < y.idx) := by
  simp [keyLess, BitVec.lt_def, BitVec.toNat_inj]

theorem keyLess_false_iff (x y : WorkItem) :
    keyLess x y = false ↔ y.cnt.toNat < x.cnt.toNat ∨ (y.cnt.toNat = x.cnt.toNat ∧ y.idx ≤ x.idx) := by
  rw [← Bool.not_eq_true, keyLess_iff]
  omega

theorem takeMin_eq_none_iff (w : List WorkItem) : takeMin w = none ↔ w = [] := by
  cases w with
  | nil => simp [takeMin]
  | cons x xs =>
    simp only [takeMin, reduceCtorEq, iff_false]
    cases takeMin xs with
    | none => simp
    | some p => obtain ⟨m, r⟩ := p; simp only; split <;> simp

/-- What is removed is a member, what is left is the rest, and no member of the rest has a smaller key
(41_tree_builder.md R94). -/
theorem takeMin_spec {w : List WorkItem} {m : WorkItem} {r : List WorkItem} (h : takeMin w = some (m, r)) :
    w.Perm (m :: r) ∧ ∀ x ∈ r, keyLess x m = false := by
  induction w generalizing m r with
  | nil => simp [takeMin] at h
  | cons x xs ih =>
    unfold takeMin at h
    cases hx : takeMin xs with
    | none =>
      have := (takeMin_eq_none_iff xs).1 hx
      subst this
      simp only [takeMin, Option.some.injEq, Prod.mk.injEq] at h
      obtain ⟨rfl, rfl⟩ := h
      simp
    | some p =>
      obtain ⟨m', r'⟩ := p
      obtain ⟨hp, hm⟩ := ih hx
      simp only [hx] at h
      split at h
      · rename_i hk
        simp only [Option.some.injEq, Prod.mk.injEq] at h
        obtain ⟨rfl, rfl⟩ := h
        refine ⟨(hp.cons x).trans (List.Perm.swap _ _ _), fun y hy => ?_⟩
        rcases List.mem_cons.1 hy with rfl | hy
        · rw [keyLess_iff] at hk
          rw [keyLess_false_iff]
          omega
        · exact hm y hy
      · rename_i hk
        simp only [Option.some.injEq, Prod.mk.injEq] at h
        obtain ⟨rfl, rfl⟩ := h
        refine ⟨List.Perm.refl _, fun y hy => ?_⟩
        rcases List.mem_cons.1 (hp.subset hy) with rfl | hy
        · simpa using hk
        · have h₁ := hm y hy
          rw [Bool.not_eq_true, keyLess_false_iff] at hk
          rw [keyLess_false_iff] at h₁ ⊢
          omega

theorem leafItems_length (i : Nat) (es : List FreqEntry) : (leafItems i es).length = es.length := by
  induction es generalizing i with
  | nil => rfl
  | cons e es ih => simp [leafItems, ih]

theorem leafItems_getElem? (i : Nat) (es : List FreqEntry) (k : Nat) :
    (leafItems i es)[k]? = es[k]?.map fun e => { idx := i + k, cnt := e.cnt.setWidth 40 } := by
  induction es generalizing i k with
  | nil => simp [leafItems]
  | cons e es ih =>
    cases k with
    | zero => simp [leafItems]
    | succ k => simp [leafItems, ih, Nat.add_assoc, Nat.add_comm 1]

/-! ### The merge loop -/

/-- A list of nodes as a store, zero past its end. -/
def storeOf (nodes : List Node) (i : Nat) : Node := nodes.getD i zeroNode

theorem storeOf_append_left {nodes : List Node} {i : Nat} (h : i < nodes.length) (nd : Node) :
    storeOf (nodes ++ [nd]) i = storeOf nodes i := by
  simp [storeOf, List.getD_eq_getElem?_getD, List.getElem?_append_left h]

theorem storeOf_append_last (nodes : List Node) (nd : Node) : storeOf (nodes ++ [nd]) nodes.length = nd := by
  simp [storeOf, List.getD_eq_getElem?_getD]

/-- What the merge loop keeps, with `es` the frequency table: every node made so far is a leaf or a merge of the two least,
the working collection is the set of roots, and each of its members holds the tree `T` gives its index. -/
structure MergeInv (es : List FreqEntry) (nodes : List Node) (work : List WorkItem) (T : Nat → HTree) : Prop where
  count : nodes.length + work.length = 2 * es.length
  enough : es.length ≤ nodes.length
  leaves : ∀ i e, es[i]? = some e → storeOf nodes i = leafOf e
  work_iff : ∀ i, (∃ x ∈ work, x.idx = i) ↔ InWork (storeOf nodes) es.length (nodes.length - es.length) i
  nodup : (work.map (·.idx)).Nodup
  counts : ∀ x ∈ work, (storeOf nodes x.idx).cnt = x.cnt
  merged : ∀ j, j < nodes.length - es.length → MergedAt (storeOf nodes) es.length j
  trees : ∀ x ∈ work, HoldsTree (storeOf nodes) (T x.idx) x.idx
  syms : (work.flatMap fun x => symbols (T x.idx)).Perm (es.map (·.sym))
  sizes : (work.map fun x => size (T x.idx)).sum = nodes.length
  total : (work.map fun x => x.cnt.toNat).sum = (es.map fun e => e.cnt.toNat).sum

theorem inWork_congr {f g : Nat → Node} {n k i : Nat} (h : ∀ j, j < n + k → f j = g j) :
    InWork f n k i ↔ InWork g n k i := by
  unfold InWork
  constructor <;> rintro ⟨h₁, h₂⟩ <;> refine ⟨h₁, fun j hj => ?_⟩ <;> have := h₂ j hj <;>
    have e := h (n + j) (by omega)
  · rwa [e] at this
  · rwa [← e] at this

theorem keyBelow_congr {f g : Nat → Node} {i j : Nat} (hi : f i = g i) (hj : f j = g j) (h : KeyBelow f i j) :
    KeyBelow g i j := by
  unfold KeyBelow at *
  rwa [hi, hj] at h

theorem mergedAt_congr {f g : Nat → Node} {n k : Nat} (h : ∀ j, j ≤ n + k → f j = g j) (hm : MergedAt f n k) :
    MergedAt g n k := by
  obtain ⟨h1, h2, h3, h4, h5, h6, h7, h8, h9⟩ := hm
  have e := h (n + k) le_rfl
  have el := h _ (Nat.le_of_lt h6.1)
  have er := h _ (Nat.le_of_lt h7.1)
  rw [e] at h1 h2 h3 h4 h5 h6 h7 h8 h9 el er
  have w : ∀ i, InWork f n k i ↔ InWork g n k i := fun i => inWork_congr fun j hj => h j (by omega)
  refine ⟨h1, h2, h3, h4, ?_, (w _).1 h6, (w _).1 h7, keyBelow_congr el er h8, fun c hc hl hr => ?_⟩
  · rw [← el, ← er]; exact h5
  · exact keyBelow_congr er (h c (Nat.le_of_lt hc.1)) (h9 c ((w c).2 hc) hl hr)

theorem toNat_ofNat_nine {i : Nat} (h : i < 512) : (BitVec.ofNat 9 i).toNat = i := by
  rw [BitVec.toNat_ofNat]; omega

/-- One merge keeps the invariant. -/
theorem mergeInv_step {es : List FreqEntry} {nodes : List Node} {work rest : List WorkItem} {a b : WorkItem}
    {T : Nat → HTree} (hes : es.length ≤ 256) (htot : (es.map fun e => e.cnt.toNat).sum < 2 ^ 40)
    (h : MergeInv es nodes work T) (hp : work.Perm (a :: b :: rest))
    (hab : keyLess b a = false) (hra : ∀ x ∈ rest, keyLess x a = false) (hrb : ∀ x ∈ rest, keyLess x b = false) :
    MergeInv es (nodes ++ [mergeNode a b]) ({ idx := nodes.length, cnt := a.cnt + b.cnt } :: rest)
      (Function.update T nodes.length (.node (T a.idx) (T b.idx))) := by
  have ha : a ∈ work := hp.symm.subset (by simp)
  have hb : b ∈ work := hp.symm.subset (by simp)
  have hr : ∀ x ∈ rest, x ∈ work := fun x hx => hp.symm.subset (by simp [hx])
  have hlen := hp.length_eq
  simp only [List.length_cons] at hlen
  have hcount := h.count
  have henough := h.enough
  set n := es.length with hn
  set k := nodes.length - n with hk
  have hnk : n + k = nodes.length := by omega
  have hlt : ∀ x ∈ work, x.idx < nodes.length := fun x hx => by
    have := ((h.work_iff x.idx).1 ⟨x, hx, rfl⟩).1
    omega
  have hnd : ((a :: b :: rest).map (·.idx)).Nodup := (hp.map _).nodup_iff.1 h.nodup
  simp only [List.map_cons, List.nodup_cons, List.mem_cons, not_or] at hnd
  obtain ⟨⟨hne, har⟩, hbr, hndr⟩ := hnd
  have hle : (BitVec.ofNat 9 a.idx).toNat = a.idx := toNat_ofNat_nine (by have := hlt a ha; omega)
  have hri : (BitVec.ofNat 9 b.idx).toNat = b.idx := toNat_ofNat_nine (by have := hlt b hb; omega)
  have hold : ∀ j, j < nodes.length → storeOf (nodes ++ [mergeNode a b]) j = storeOf nodes j :=
    fun j hj => storeOf_append_left hj _
  have hnew : storeOf (nodes ++ [mergeNode a b]) nodes.length = mergeNode a b := storeOf_append_last _ _
  have htotal : a.cnt.toNat + b.cnt.toNat + (rest.map fun x => x.cnt.toNat).sum =
      (es.map fun e => e.cnt.toNat).sum := by
    rw [← h.total, (hp.map _).sum_eq]
    simp [Nat.add_assoc]
  have hsum : (a.cnt + b.cnt).toNat = a.cnt.toNat + b.cnt.toNat := by
    rw [BitVec.toNat_add]; omega
  have hTne : ∀ x ∈ work, Function.update T nodes.length (HTree.node (T a.idx) (T b.idx)) x.idx = T x.idx :=
    fun x hx => Function.update_of_ne (by have := hlt x hx; omega) _ _
  have hw : ∀ i, InWork (storeOf (nodes ++ [mergeNode a b])) n k i ↔ ∃ x ∈ work, x.idx = i := fun i => by
    rw [h.work_iff i]
    exact inWork_congr fun j hj => hold j (by omega)
  have hcnt : ∀ x ∈ work, (storeOf (nodes ++ [mergeNode a b]) x.idx).cnt = x.cnt := fun x hx => by
    rw [hold _ (hlt x hx)]; exact h.counts x hx
  have hmk : (nodes ++ [mergeNode a b]).length - n = k + 1 := by simp; omega
  refine ⟨?_, ?_, ?_, ?_, ?_, ?_, ?_, ?_, ?_, ?_, ?_⟩
  · simp only [List.length_append, List.length_cons, List.length_nil]; omega
  · simp; omega
  · intro i e he
    have hi : i < n := (List.getElem?_eq_some_iff.1 he).1
    rw [hold i (by omega)]
    exact h.leaves i e he
  · intro i
    rw [hmk]
    constructor
    · rintro ⟨x, hx, rfl⟩
      rcases List.mem_cons.1 hx with rfl | hx
      · refine ⟨by simp only; omega, fun j hj => ?_⟩
        rcases Nat.lt_succ_iff_lt_or_eq.1 hj with hj | rfl
        · have hm := mergedAt_congr (fun i hi => (hold i (by omega)).symm) (h.merged j hj)
          have h6 := hm.2.2.2.2.2.1.1
          have h7 := hm.2.2.2.2.2.2.1.1
          simp only
          omega
        · rw [hnk, hnew]
          simp only [mergeNode, zeroNode, hle, hri]
          have := hlt a ha
          have := hlt b hb
          omega
      · have h₁ := (hw x.idx).2 ⟨x, hr x hx, rfl⟩
        refine ⟨by have := h₁.1; omega, fun j hj => ?_⟩
        rcases Nat.lt_succ_iff_lt_or_eq.1 hj with hj | rfl
        · exact h₁.2 j hj
        · rw [hnk, hnew]
          simp only [mergeNode, zeroNode, hle, hri]
          exact ⟨fun e => har (List.mem_map.2 ⟨x, hx, e.symm⟩), fun e => hbr (List.mem_map.2 ⟨x, hx, e.symm⟩)⟩
    · rintro ⟨hi, hall⟩
      by_cases hin : i = nodes.length
      · exact ⟨_, List.mem_cons_self, hin.symm⟩
      · obtain ⟨x, hx, rfl⟩ := (hw i).1 ⟨by omega, fun j hj => hall j (by omega)⟩
        have hlast := hall k (by omega)
        rw [hnk, hnew] at hlast
        simp only [mergeNode, zeroNode, hle, hri] at hlast
        rcases List.mem_cons.1 (hp.subset hx) with rfl | hx
        · exact absurd rfl hlast.1
        · rcases List.mem_cons.1 hx with rfl | hx
          · exact absurd rfl hlast.2
          · exact ⟨x, List.mem_cons_of_mem _ hx, rfl⟩
  · simp only [List.map_cons, List.nodup_cons]
    refine ⟨fun hm => ?_, hndr⟩
    obtain ⟨x, hx, he⟩ := List.mem_map.1 hm
    have := hlt x (hr x hx)
    omega
  · intro x hx
    rcases List.mem_cons.1 hx with rfl | hx
    · rw [hnew]; rfl
    · exact hcnt x (hr x hx)
  · intro j hj
    rw [hmk] at hj
    rcases Nat.lt_succ_iff_lt_or_eq.1 hj with hj | rfl
    · exact mergedAt_congr (fun i hi => (hold i (by omega)).symm) (h.merged j hj)
    · have keyB : ∀ x y, x ∈ work → y ∈ work → keyLess y x = false → x.idx ≠ y.idx →
          KeyBelow (storeOf (nodes ++ [mergeNode a b])) x.idx y.idx := fun x y hx hy hk' hxy => by
        rw [keyLess_false_iff] at hk'
        unfold KeyBelow
        rw [hcnt x hx, hcnt y hy]
        omega
      have hL : (mergeNode a b).left.toNat = a.idx := hle
      have hR : (mergeNode a b).right.toNat = b.idx := hri
      unfold MergedAt
      rw [hnk, hnew, hL, hR, hcnt a ha, hcnt b hb]
      refine ⟨rfl, rfl, rfl, rfl, hsum, (hw _).2 ⟨a, ha, rfl⟩, (hw _).2 ⟨b, hb, rfl⟩, ?_, ?_⟩
      · exact keyB a b ha hb hab hne
      · intro c hc hca hcb
        obtain ⟨x, hx, rfl⟩ := (hw c).1 hc
        rcases List.mem_cons.1 (hp.subset hx) with rfl | hx'
        · exact absurd rfl hca
        · rcases List.mem_cons.1 hx' with rfl | hx'
          · exact absurd rfl hcb
          · exact keyB b x hb hx (hrb x hx') (Ne.symm hcb)
  · intro x hx
    rcases List.mem_cons.1 hx with rfl | hx
    · simp only [Function.update_self]
      have hta := h.trees a ha
      have htb := h.trees b hb
      have hwa := (holdsTree_cnt hta).1
      have hwb := (holdsTree_cnt htb).1
      rw [h.counts a ha] at hwa
      rw [h.counts b hb] at hwb
      refine ⟨BitVec.ofNat 9 a.idx, BitVec.ofNat 9 b.idx, by rw [hle]; exact hlt a ha, by rw [hri]; exact hlt b hb,
        by omega, ?_, ?_, ?_⟩
      · rw [hnew]
        simp only [mergeNode, zeroNode, Node.mk.injEq, and_true]
        apply BitVec.eq_of_toNat_eq
        rw [hsum, BitVec.toNat_ofNat, ← hwa, ← hwb]
        omega
      · rw [hle]
        exact holdsTree_congr (fun j hj => (hold j (by have := hlt a ha; omega)).symm) hta
      · rw [hri]
        exact holdsTree_congr (fun j hj => (hold j (by have := hlt b hb; omega)).symm) htb
    · rw [hTne x (hr x hx)]
      exact holdsTree_congr (fun j hj => (hold j (by have := hlt x (hr x hx); omega)).symm) (h.trees x (hr x hx))
  · have e : (rest.flatMap fun x => symbols (Function.update T nodes.length (.node (T a.idx) (T b.idx)) x.idx)) =
        rest.flatMap fun x => symbols (T x.idx) :=
      List.flatMap_congr fun x hx => by rw [hTne x (hr x hx)]
    have h₁ := (hp.flatMap_right fun x => symbols (T x.idx)).symm.trans h.syms
    simp only [List.flatMap_cons, Function.update_self, symbols, e, List.append_assoc] at h₁ ⊢
    exact h₁
  · have e : (rest.map fun x => size (Function.update T nodes.length (.node (T a.idx) (T b.idx)) x.idx)) =
        rest.map fun x => size (T x.idx) :=
      List.map_congr_left fun x hx => by rw [hTne x (hr x hx)]
    have h₁ := h.sizes
    rw [(hp.map fun x => size (T x.idx)).sum_eq] at h₁
    simp only [List.map_cons, List.sum_cons, Function.update_self, size, e, List.length_append, List.length_nil,
      List.length_cons] at h₁ ⊢
    omega
  · simp only [List.map_cons, List.sum_cons, hsum]
    omega

/-- The merge loop ends with one member of the working collection. -/
theorem mergeLoop_spec {es : List FreqEntry} (hes : es.length ≤ 256)
    (htot : (es.map fun e => e.cnt.toNat).sum < 2 ^ 40) (fuel : Nat) (nodes : List Node) (work : List WorkItem)
    (T : Nat → HTree) (h : MergeInv es nodes work T) (hf : work.length ≤ fuel + 1) (hw : 1 ≤ work.length) :
    ∃ x T', MergeInv es (mergeLoop fuel nodes work) [x] T' := by
  induction fuel generalizing nodes work T with
  | zero =>
    obtain ⟨x, rfl⟩ := List.length_eq_one_iff.1 (show work.length = 1 by omega)
    exact ⟨x, T, h⟩
  | succ fuel ih =>
    unfold mergeLoop
    cases h₁ : takeMin work with
    | none => rw [takeMin_eq_none_iff] at h₁; simp [h₁] at hw
    | some p =>
      obtain ⟨a, work₁⟩ := p
      obtain ⟨hp₁, hm₁⟩ := takeMin_spec h₁
      cases h₂ : takeMin work₁ with
      | none =>
        rw [takeMin_eq_none_iff] at h₂
        subst h₂
        have := hp₁.length_eq
        obtain ⟨x, rfl⟩ := List.length_eq_one_iff.1 (show work.length = 1 by simpa using this)
        simp only
        exact ⟨x, T, h⟩
      | some q =>
        obtain ⟨b, work₂⟩ := q
        obtain ⟨hp₂, hm₂⟩ := takeMin_spec h₂
        have hp : work.Perm (a :: b :: work₂) := hp₁.trans (hp₂.cons a)
        have hl := hp.length_eq
        simp only [List.length_cons] at hl
        simp only [h₂]
        exact ih _ _ _ (mergeInv_step hes htot h hp (hm₁ b (hp₂.symm.subset (by simp)))
          (fun x hx => hm₁ x (hp₂.symm.subset (by simp [hx]))) hm₂) (by simp; omega) (by simp)

theorem leafItems_mem {es : List FreqEntry} {x : WorkItem} (h : x ∈ leafItems 0 es) :
    ∃ e, es[x.idx]? = some e ∧ x.cnt = e.cnt.setWidth 40 := by
  obtain ⟨k, hk⟩ := List.mem_iff_getElem?.1 h
  rw [leafItems_getElem?] at hk
  obtain ⟨e, he, rfl⟩ := Option.map_eq_some_iff.1 hk
  exact ⟨e, by simpa using he, rfl⟩

theorem leafItems_map {β : Type} (f : WorkItem → β) (i : Nat) (es : List FreqEntry) :
    (leafItems i es).map f =
      es.mapIdx fun k e => f { idx := i + k, cnt := e.cnt.setWidth 40 } := by
  apply List.ext_getElem?
  intro k
  simp only [List.getElem?_map, leafItems_getElem?, List.getElem?_mapIdx, Option.map_map]
  rfl

theorem setWidth_forty_toNat (c : BitVec 32) : (c.setWidth 40).toNat = c.toNat := by
  rw [BitVec.toNat_setWidth, Nat.mod_eq_of_lt (by omega)]

theorem storeOf_leaves (es : List FreqEntry) {i : Nat} {e : FreqEntry} (h : es[i]? = some e) :
    storeOf (es.map leafOf) i = leafOf e := by
  simp [storeOf, List.getD_eq_getElem?_getD, h]

/-- The leaves meet the merge loop's invariant. -/
theorem mergeInv_start (es : List FreqEntry) :
    MergeInv es (es.map leafOf) (leafItems 0 es)
      (fun i => .leaf (es.getD i default).sym (es.getD i default).cnt.toNat) := by
  refine ⟨?_, ?_, ?_, ?_, ?_, ?_, ?_, ?_, ?_, ?_, ?_⟩
  · simp [leafItems_length]; omega
  · simp
  · exact fun i e he => storeOf_leaves es he
  · intro i
    simp only [List.length_map, Nat.sub_self, InWork, Nat.add_zero, Nat.not_lt_zero, false_implies, implies_true,
      and_true]
    constructor
    · rintro ⟨x, hx, rfl⟩
      obtain ⟨e, he, -⟩ := leafItems_mem hx
      exact (List.getElem?_eq_some_iff.1 he).1
    · intro hi
      refine ⟨{ idx := i, cnt := es[i].cnt.setWidth 40 }, List.mem_iff_getElem?.2 ⟨i, ?_⟩, rfl⟩
      simp [leafItems_getElem?, List.getElem?_eq_getElem hi]
  · rw [leafItems_map, List.mapIdx_eq_zipIdx_map]
    simp only [Nat.zero_add]
    have : (es.zipIdx.map fun x => x.2) = List.range' 0 es.length := by simp
    rw [show (fun x : FreqEntry × Nat => x.2) = fun x => x.2 from rfl, this]
    exact List.nodup_range'
  · intro x hx
    obtain ⟨e, he, hc⟩ := leafItems_mem hx
    rw [storeOf_leaves es he, hc]
    rfl
  · intro j hj
    simp at hj
  · intro x hx
    obtain ⟨e, he, hc⟩ := leafItems_mem hx
    have hd : es.getD x.idx default = e := by simp [List.getD_eq_getElem?_getD, he]
    rw [hd]
    refine ⟨?_, by omega⟩
    rw [storeOf_leaves es he]
    simp [leafOf, zeroNode, BitVec.ofNat_toNat]
  · simp only [symbols]
    rw [← List.map_eq_flatMap, leafItems_map]
    have e : (es.mapIdx fun k e => (es.getD (0 + k) default).sym) = es.map (·.sym) := by
      apply List.ext_getElem?
      intro k
      cases hk : es[k]? with
      | none => simp [List.getElem?_mapIdx, hk]
      | some e => simp [List.getElem?_mapIdx, hk, List.getD_eq_getElem?_getD]
    rw [e]
  · simp only [size]
    rw [leafItems_map]
    simp [List.mapIdx_eq_zipIdx_map]
  · rw [leafItems_map]
    congr 1
    apply List.ext_getElem?
    intro k
    simp only [List.getElem?_mapIdx, List.getElem?_map, setWidth_forty_toNat]

theorem sum_counts_le (es : List FreqEntry) :
    (es.map fun e => e.cnt.toNat).sum ≤ es.length * (2 ^ 32 - 1) := by
  induction es with
  | nil => simp
  | cons e es ih =>
    have : e.cnt.toNat < 2 ^ 32 := e.cnt.isLt
    simp only [List.map_cons, List.sum_cons, List.length_cons]
    omega

/-- What BUILD_TREE makes of a table of 1 to 256 entries (41_tree_builder.md R93 to R97): 2n - 1 nodes, the leaves first,
then the merges of the two least, and the last node the root of a tree with the table's symbols and the sum of its
counts. -/
theorem huffmanNodes_spec (es : List FreqEntry) (h₁ : 1 ≤ es.length) (h₂ : es.length ≤ 256) :
    (huffmanNodes es).length = 2 * es.length - 1 ∧
    (∀ i e, es[i]? = some e → storeOf (huffmanNodes es) i = leafOf e) ∧
    (∀ j, j < es.length - 1 → MergedAt (storeOf (huffmanNodes es)) es.length j) ∧
    (∀ i, InWork (storeOf (huffmanNodes es)) es.length (es.length - 1) i ↔ i = 2 * es.length - 2) ∧
    ∃ t, HoldsTree (storeOf (huffmanNodes es)) t (2 * es.length - 2) ∧ (symbols t).Perm (es.map (·.sym)) ∧
      size t = 2 * es.length - 1 ∧ weight t = (es.map fun e => e.cnt.toNat).sum := by
  have hle := sum_counts_le es
  have htot : (es.map fun e => e.cnt.toNat).sum < 2 ^ 40 := by
    have : es.length * (2 ^ 32 - 1) ≤ 256 * (2 ^ 32 - 1) := Nat.mul_le_mul_right _ h₂
    omega
  obtain ⟨x, T, h⟩ := mergeLoop_spec h₂ htot es.length _ _ _ (mergeInv_start es)
    (by rw [leafItems_length]; omega) (by rw [leafItems_length]; omega)
  change MergeInv es (huffmanNodes es) [x] T at h
  have hlen : (huffmanNodes es).length = 2 * es.length - 1 := by
    have := h.count
    simp only [List.length_cons, List.length_nil] at this
    omega
  have hk : (huffmanNodes es).length - es.length = es.length - 1 := by omega
  have hroot : InWork (storeOf (huffmanNodes es)) es.length (es.length - 1) (2 * es.length - 2) := by
    refine ⟨by omega, fun j hj => ?_⟩
    have hm := h.merged j (by omega)
    have h6 := hm.2.2.2.2.2.1.1
    have h7 := hm.2.2.2.2.2.2.1.1
    omega
  have hidx : x.idx = 2 * es.length - 2 := by
    obtain ⟨y, hy, he⟩ := (h.work_iff (2 * es.length - 2)).2 (by rw [hk]; exact hroot)
    rw [List.mem_singleton] at hy
    rw [← he, hy]
  refine ⟨hlen, h.leaves, fun j hj => h.merged j (by omega), fun i => ?_, T x.idx, ?_, ?_, ?_, ?_⟩
  · rw [← hk, ← h.work_iff i]
    simp [hidx, eq_comm]
  · rw [← hidx]
    exact h.trees x (by simp)
  · simpa using h.syms
  · simpa [hlen] using h.sizes
  · have hc := h.counts x (by simp)
    have ht := (holdsTree_cnt (h.trees x (by simp))).1
    rw [hc] at ht
    rw [← ht]
    simpa using h.total

/-! ### The command -/

/-- The result of BUILD_TREE on a valid table (41_tree_builder.md R99). -/
def builtState (s : State) : State :=
  { s with
    node := Table.writeSpan s.node (nodeImage (huffmanNodes (s.ftabList s.ftabLen.toNat)))
    nodeCount := BitVec.ofNat 9 (2 * s.ftabLen.toNat - 1)
    rootCntLo :=
      (storeOf (huffmanNodes (s.ftabList s.ftabLen.toNat)) (2 * s.ftabLen.toNat - 2)).cnt.setWidth 32
    rootCntHi :=
      (storeOf (huffmanNodes (s.ftabList s.ftabLen.toNat)) (2 * s.ftabLen.toNat - 2)).cnt.extractLsb' 32 8
    treeValid := true
    codesValid := false }

theorem buildTree_valid {s : State} (h : TableValid s) : buildTree s = .ok (builtState s) := by
  simp only [buildTree, (validateTable_ok_iff s).2 h]
  rfl

/-- All that BUILD_TREE can answer: the error of its validation, or the built state of a valid table. -/
theorem buildTree_cases (s : State) :
    (∃ e, validateTable s s.ftabLen.toNat = .error e ∧ buildTree s = .error e) ∨
    (TableValid s ∧ buildTree s = .ok (builtState s)) := by
  cases h : validateTable s s.ftabLen.toNat with
  | error e => exact .inl ⟨e, rfl, by simp only [buildTree, h]⟩
  | ok u => exact .inr ⟨(validateTable_ok_iff s).1 h, buildTree_valid ((validateTable_ok_iff s).1 h)⟩

theorem scanEntries_raises {i : Nat} {seen : List Byte} {l : List FreqEntry} {e : CmdFail}
    (h : scanEntries i seen l = .error e) : ∃ c, e = .raised c ∧ c.name = .invalidInput := by
  induction l generalizing i seen with
  | nil => cases h
  | cons x l ih =>
    unfold scanEntries at h
    split at h
    · cases h; exact ⟨_, rfl, rfl⟩
    · split at h
      · cases h; exact ⟨_, rfl, rfl⟩
      · exact ih h

/-- Validation raises InvalidInput and nothing else (41_tree_builder.md R91). -/
theorem validateTable_raises {s : State} {n : Nat} {e : CmdFail} (h : validateTable s n = .error e) :
    ∃ c, e = .raised c ∧ c.name = .invalidInput := by
  unfold validateTable at h
  split at h
  · cases h; exact ⟨_, rfl, rfl⟩
  · split at h
    · cases h; exact ⟨_, rfl, rfl⟩
    · exact scanEntries_raises h

theorem nodeImage_length (nodes : List Node) : (nodeImage nodes).length = 511 := by simp [nodeImage]

theorem nodeImage_getElem? (nodes : List Node) {i : Nat} (h : i < 511) :
    (nodeImage nodes)[i]? = some (storeOf nodes i) := by
  simp [nodeImage, storeOf, h]

/-- NODE after a successful BUILD_TREE: the tree, and zeros (41_tree_builder.md R99). -/
theorem builtState_nodeAt (s : State) {i : Nat} (h : i < 511) :
    (builtState s).nodeAt i = storeOf (huffmanNodes (s.ftabList s.ftabLen.toNat)) i := by
  unfold State.nodeAt builtState
  simp only [Table.find_writeSpan, nodeImage_length, h, if_true, nodeImage_getElem? _ h, Option.getD_some]

theorem range'_head {n i : Nat} (h : i < n) : List.range' i (n - i) = i :: List.range' (i + 1) (n - i - 1) := by
  rw [show n - i = (n - i - 1) + 1 by omega, List.range'_succ]; simp

theorem succeed_nodeAt (s : State) : s.succeed.nodeAt = s.nodeAt := rfl

/-- What NODE holds after BUILD_TREE on a valid table: the leaves, the merges, the one root left, and a tree. -/
theorem builtState_facts {s : State} (h : TableValid s) :
    (huffmanNodes (s.ftabList s.ftabLen.toNat)).length = 2 * s.ftabLen.toNat - 1 ∧
    (∀ i, i < s.ftabLen.toNat → (builtState s).nodeAt i = leafOf (s.ftabAt i)) ∧
    (∀ j, j < s.ftabLen.toNat - 1 → MergedAt (builtState s).nodeAt s.ftabLen.toNat j) ∧
    (∀ i, InWork (builtState s).nodeAt s.ftabLen.toNat (s.ftabLen.toNat - 1) i ↔ i = 2 * s.ftabLen.toNat - 2) ∧
    ∃ t, HoldsTree (builtState s).nodeAt t (2 * s.ftabLen.toNat - 2) ∧
      (symbols t).Perm ((s.ftabList s.ftabLen.toNat).map (·.sym)) ∧
      size t = 2 * s.ftabLen.toNat - 1 ∧
      weight t = ((List.range s.ftabLen.toNat).map fun i => (s.ftabAt i).cnt.toNat).sum := by
  obtain ⟨h1, h2, h3, h4⟩ := h
  have hl := ftabList_length s s.ftabLen.toNat
  obtain ⟨a, b, c, d, t, e, f, g, i⟩ := huffmanNodes_spec (s.ftabList s.ftabLen.toNat) (by omega) (by omega)
  rw [hl] at a c d e g
  have hag : ∀ j, j ≤ 510 → storeOf (huffmanNodes (s.ftabList s.ftabLen.toNat)) j = (builtState s).nodeAt j :=
    fun j hj => (builtState_nodeAt s (by omega)).symm
  refine ⟨a, fun i hi => ?_, fun j hj => mergedAt_congr (fun k hk => hag k (by omega)) (c j hj), fun i => ?_, t,
    holdsTree_congr (fun j hj => hag j (by omega)) e, f, g, ?_⟩
  · rw [← hag i (by omega)]
    exact b i _ (by simp [State.ftabList, hi])
  · rw [← d i]
    exact (inWork_congr fun j hj => hag j (by omega)).symm
  · rw [i, State.ftabList, List.map_map]; rfl

/-- ROOT_CNT after BUILD_TREE (41_tree_builder.md R99). -/
theorem builtState_rootCnt {s : State} (h : TableValid s) : (builtState s).rootCntLo = BitVec.ofNat 32 (((builtState s).nodeAt (2 * s.ftabLen.toNat - 2)).cnt.toNat % 2 ^ 32) ∧
   (builtState s).rootCntHi = BitVec.ofNat 8 (((builtState s).nodeAt (2 * s.ftabLen.toNat - 2)).cnt.toNat / 2 ^ 32) := by
  obtain ⟨h1, h2, _⟩ := h
  rw [builtState_nodeAt s (by omega)]
  simp only [builtState]
  generalize (storeOf (huffmanNodes (s.ftabList s.ftabLen.toNat)) (2 * s.ftabLen.toNat - 2)).cnt = c
  have := c.isLt
  constructor
  · apply BitVec.eq_of_toNat_eq; simp
  · apply BitVec.eq_of_toNat_eq; simp [Nat.shiftRight_eq_div_pow]

/-- NODE past the tree is zero (41_tree_builder.md R99). -/
theorem builtState_nodeAt_past {s : State} (h : TableValid s) {i : Nat} (h1 : 2 * s.ftabLen.toNat - 1 ≤ i) (h2 : i ≤ 510) :
    (builtState s).nodeAt i = zeroNode := by
  have := (builtState_facts h).1
  rw [builtState_nodeAt s (by omega), storeOf, List.getD_eq_getElem?_getD, List.getElem?_eq_none (by omega)]; rfl

/-- The block holds a tree over the symbols of the table after BUILD_TREE. -/
theorem builtState_holds {s : State} (h : TableValid s) : ∃ t, BlockHoldsTree (builtState s).succeed t ∧
   (symbols t).Perm ((s.ftabList s.ftabLen.toNat).map (·.sym)) := by
  obtain ⟨-, -, -, -, t, ht, hp, hsz, hw⟩ := builtState_facts h
  have h1 := h.1
  have h2 := h.2.1
  have hcnt : (builtState s).succeed.nodeCount.toNat = 2 * s.ftabLen.toNat - 1 := toNat_ofNat_nine (by omega)
  refine ⟨t, ⟨by rw [hcnt, hsz], ?_, ?_, ?_⟩, hp⟩
  · rw [hcnt]; exact ht
  · rw [hp.nodup_iff]; exact (ftabList_nodup_iff s _).2 h.2.2.2
  · show (builtState s).rootCntHi.toNat * _ + (builtState s).rootCntLo.toNat = _
    have hc := holdsTree_cnt ht
    rw [(builtState_rootCnt h).1, (builtState_rootCnt h).2, hc.1]
    simp only [BitVec.toNat_ofNat]
    omega

end Sys2Proof.Machine
end

