-- ==== Sys2Proof/Laws/Bus.lean ====
section
/-! SUPPORT. The laws of HOST transactions: where each address lands, and all that a read or a write can do. -/

namespace Sys2Proof.Machine

open Sys2Proof.Safety

/-! ### Where an address lands -/

theorem locate_ctrl (p : Config.Params) : locate p 0x00C .b4 = some (.reg .ctrl) := rfl
theorem locate_cmd (p : Config.Params) : locate p 0x010 .b4 = some (.reg .cmd) := rfl
theorem locate_status (p : Config.Params) : locate p 0x014 .b4 = some (.reg .status) := rfl
theorem locate_ftabLen (p : Config.Params) : locate p 0x024 .b4 = some (.reg .ftabLen) := rfl
theorem locate_srcLen (p : Config.Params) : locate p 0x028 .b4 = some (.reg .srcLen) := rfl

theorem regAt_isSome {k : Nat} (h : k < 16) : (regAt k).isSome = true := by
  revert k
  decide

theorem wordLoc_isSome_iff (a : Nat) :
    (wordLoc a).isSome = true ↔
      a < 0x40 ∨ (0x1000 ≤ a ∧ a < 0x1800) ∨ (0x2000 ≤ a ∧ a < 0x3FF0) ∨ (0x4000 ≤ a ∧ a < 0x8000) := by
  unfold wordLoc
  split
  · have := regAt_isSome (k := a / 4) (by omega)
    simp only [Option.isSome_map, this, true_iff]
    omega
  · split
    · simp
      omega
    · split
      · simp
        omega
      · split
        · simp
          omega
        · simp
          omega

theorem byteLoc_isSome_iff (p : Config.Params) (a n : Nat) :
    (byteLoc p a n).isSome = true ↔
      (0x01000000 ≤ a ∧ a + n ≤ 0x01000000 + p.maxSrcLen) ∨ (0x02000000 ≤ a ∧ a + n ≤ 0x02000000 + p.outCapBytes) := by
  unfold byteLoc srcBase outBase
  split
  · simp; omega
  · split <;> simp <;> omega

theorem sizeBytes_eq_four (n : BusSize) : sizeBytes n = 4 ↔ n = .b4 := by cases n <;> simp [sizeBytes]

/-- The block answers OKAY to exactly the accesses of 20_memory.md R45 to R49. -/
theorem locate_isSome_iff (p : Config.Params) (a : Word) (n : BusSize) :
    (locate p a n).isSome = true ↔ busAccepts p a.toNat (sizeBytes n) := by
  unfold locate busAccepts
  by_cases h : a.toNat % sizeBytes n = 0
  · simp only [h, ne_eq, not_true_eq_false, if_false, true_and]
    by_cases h₁ : a.toNat < 0x8000
    · rw [if_pos h₁]
      by_cases h₂ : n = .b4
      · subst h₂
        rw [if_pos rfl, wordLoc_isSome_iff]
        simp only [sizeBytes, true_and]
        omega
      · have h₃ : sizeBytes n ≠ 4 := fun e => h₂ ((sizeBytes_eq_four n).1 e)
        rw [if_neg h₂]
        simp only [h₃, false_and, false_or, Option.isSome_none, Bool.false_eq_true, false_iff]
        omega
    · rw [if_neg h₁, byteLoc_isSome_iff]
      omega
  · simp [h]

theorem locate_eq_none_iff (p : Config.Params) (a : Word) (n : BusSize) :
    locate p a n = none ↔ ¬ busAccepts p a.toNat (sizeBytes n) := by
  rw [← locate_isSome_iff, ← Option.not_isSome_iff_eq_none]

theorem locate_word {p : Config.Params} {a : Word} (h : a.toNat % 4 = 0) (h₁ : a.toNat < 0x8000) :
    locate p a .b4 = wordLoc a.toNat := by
  simp [locate, sizeBytes, h, h₁]

theorem locate_ftabSym {p : Config.Params} {a : Word} {i : Nat} (hi : i < 256) (h : a.toNat = 0x1000 + 8 * i) :
    locate p a .b4 = some (.ftabSymWord i) := by
  rw [locate_word (by omega) (by omega), wordLoc, if_neg (by omega), if_pos (by omega)]
  simp [h]

theorem locate_ftabCnt {p : Config.Params} {a : Word} {i : Nat} (hi : i < 256) (h : a.toNat = 0x1000 + 8 * i + 4) :
    locate p a .b4 = some (.ftabCntWord i) := by
  rw [locate_word (by omega) (by omega), wordLoc, if_neg (by omega), if_pos (by omega)]
  have h₁ : (a.toNat - 0x1000) % 8 = 4 := by omega
  have h₂ : (a.toNat - 0x1000) / 8 = i := by omega
  simp [h₁, h₂]

theorem locate_node {p : Config.Params} {a : Word} {i k : Nat} (hi : i ≤ 510) (hk : k < 4)
    (h : a.toNat = 0x2000 + 16 * i + 4 * k) : locate p a .b4 = some (.nodeWord i k) := by
  rw [locate_word (by omega) (by omega), wordLoc, if_neg (by omega), if_neg (by omega), if_pos (by omega)]
  rw [show (a.toNat - 0x2000) / 16 = i by omega, show (a.toNat - 0x2000) % 16 / 4 = k by omega]

theorem locate_ctab {p : Config.Params} {a : Word} {c k : Nat} (hc : c ≤ 255) (hk : k < 16)
    (h : a.toNat = 0x4000 + 64 * c + 4 * k) : locate p a .b4 = some (.ctabWord c k) := by
  rw [locate_word (by omega) (by omega), wordLoc, if_neg (by omega), if_neg (by omega), if_neg (by omega),
    if_pos (by omega)]
  rw [show (a.toNat - 0x4000) / 64 = c by omega, show (a.toNat - 0x4000) % 64 / 4 = k by omega]

theorem locate_src {p : Config.Params} {a : Word} {n : BusSize} {i : Nat} (hm : a.toNat % sizeBytes n = 0)
    (h : a.toNat = 0x01000000 + i) (hi : i + sizeBytes n ≤ p.maxSrcLen) : locate p a n = some (.srcByte i) := by
  have := sizeBytes_cases n
  rw [locate, if_neg (by simp [hm]), if_neg (by omega), byteLoc, srcBase, if_pos (by omega),
    show a.toNat - 0x01000000 = i by omega]

theorem locate_out {p : Config.Params} {a : Word} {n : BusSize} {i : Nat} (hp : paramsWellFormed p)
    (hm : a.toNat % sizeBytes n = 0) (h : a.toNat = 0x02000000 + i) (hi : i + sizeBytes n ≤ p.outCapBytes) :
    locate p a n = some (.outByte i) := by
  have := sizeBytes_cases n
  obtain ⟨_, h₂, _⟩ := hp
  rw [locate, if_neg (by simp [hm]), if_neg (by omega), byteLoc, srcBase, outBase, if_neg (by omega), if_pos (by omega),
    show a.toNat - 0x02000000 = i by omega]

/-- A location of SRC the bus accepts lies within SRC. -/
theorem srcByte_of_locate {p : Config.Params} {a : Word} {n : BusSize} {i : Nat}
    (h : locate p a n = some (.srcByte i)) : i + sizeBytes n ≤ p.maxSrcLen := by
  unfold locate at h
  split at h
  · cases h
  · split at h
    · split at h
      · unfold wordLoc at h
        split at h
        · simp at h
        · split at h
          · dsimp only at h
            split at h <;> cases h
          · split at h
            · cases h
            · split at h <;> cases h
      · cases h
    · unfold byteLoc at h
      split at h
      · injection h with h
        injection h with h
        omega
      · split at h <;> cases h

/-- A location of the FTAB window lies within FTAB. -/
theorem ftabWord_of_locate {p : Config.Params} {a : Word} {n : BusSize} {i : Nat}
    (h : locate p a n = some (.ftabSymWord i) ∨ locate p a n = some (.ftabCntWord i)) : i < 256 := by
  unfold locate at h
  split at h
  · simp at h
  · split at h
    · split at h
      · unfold wordLoc at h
        split at h
        · simp at h
        · split at h
          · dsimp only at h
            split at h <;> simp at h <;> omega
          · split at h
            · simp at h
            · split at h <;> simp at h
      · simp at h
    · unfold byteLoc at h
      split at h
      · simp at h
      · split at h <;> simp at h

/-! ### Reads -/

/-- All that a read can do. -/
theorem memRead_cases (s : State) (a : Word) (n : BusSize) :
    (locate s.params a n = none ∧ s.memRead a n = s.answerRead .error 0) ∨
    (∃ l, locate s.params a n = some l ∧ s.busy = true ∧ isResultArea l = true ∧ s.memRead a n = s.readDraw n) ∨
    (∃ l, locate s.params a n = some l ∧ (s.busy = false ∨ isResultArea l = false) ∧
      s.memRead a n = s.answerRead .okay (s.readLoc n l)) := by
  unfold State.memRead
  cases h : locate s.params a n with
  | none => simp
  | some l =>
    by_cases hb : s.busy = true <;> by_cases hr : isResultArea l = true <;> simp [hb, hr]

theorem memRead_value {s : State} {a : Word} {n : BusSize} {l : Loc} (h : locate s.params a n = some l)
    (hr : s.busy = false ∨ isResultArea l = false) : s.memRead a n = s.answerRead .okay (s.readLoc n l) := by
  unfold State.memRead
  rcases hr with hr | hr <;> simp [h, hr]

theorem memRead_draw {s : State} {a : Word} {n : BusSize} {l : Loc} (h : locate s.params a n = some l)
    (hb : s.busy = true) (hr : isResultArea l = true) : s.memRead a n = s.readDraw n := by
  simp [State.memRead, h, hb, hr]

/-- A read changes nothing but the answer and the count of draws (20_memory.md R50). -/
theorem memRead_frame (s : State) (a : Word) (n : BusSize) :
    s.memRead a n = { s with answer := (s.memRead a n).answer, draws := (s.memRead a n).draws } := by
  rcases memRead_cases s a n with ⟨_, h⟩ | ⟨l, _, _, _, h⟩ | ⟨l, _, _, h⟩ <;> rw [h] <;> rfl

/-! ### Writes -/

theorem memWrite_error {s : State} {a : Word} {n : BusSize} (v : Word) (h : locate s.params a n = none) :
    s.memWrite a n v = s.answerWrite .error := by
  simp [State.memWrite, h]

theorem memWrite_okay {s : State} {a : Word} {n : BusSize} (v : Word) {l : Loc} (h : locate s.params a n = some l) :
    s.memWrite a n v = (s.writeLoc n v l).answerWrite .okay := by
  simp [State.memWrite, h]

theorem storeUnlessBusy_busy {s : State} (h : s.busy = true) (t : State) :
    s.storeUnlessBusy t = { s with ovr := true } := if_pos h

theorem storeUnlessBusy_idle {s : State} (h : s.busy = false) (t : State) : s.storeUnlessBusy t = t := by
  simp [State.storeUnlessBusy, h]

theorem issue_busy {s : State} (h : s.busy = true) (w : Word) : s.issue w = { s with ovr := true } := if_pos h

theorem issue_idle {s : State} (h : s.busy = false) (w : Word) :
    s.issue w = { s with cmdLatch := w, busy := true, done := false } := by
  simp [State.issue, h]

/-- A write changes at most the inputs of commands, the latch, CTRL and the flags BUSY, DONE and OVR. -/
theorem writeLoc_frame (s : State) (n : BusSize) (v : Word) (l : Loc) :
    s.writeLoc n v l =
      { s with
        ie := (s.writeLoc n v l).ie, busy := (s.writeLoc n v l).busy, done := (s.writeLoc n v l).done,
        ovr := (s.writeLoc n v l).ovr, ftabLen := (s.writeLoc n v l).ftabLen, srcLen := (s.writeLoc n v l).srcLen,
        cmdLatch := (s.writeLoc n v l).cmdLatch, ftabSym := (s.writeLoc n v l).ftabSym,
        ftabCnt := (s.writeLoc n v l).ftabCnt, src := (s.writeLoc n v l).src } := by
  cases l with
  | reg r =>
    cases r <;> simp only [State.writeLoc, State.writeReg, State.storeUnlessBusy, State.issue] <;> first | rfl | (split <;> rfl)
  | ftabSymWord i => simp only [State.writeLoc, State.storeUnlessBusy]; split <;> rfl
  | ftabCntWord i => simp only [State.writeLoc, State.storeUnlessBusy]; split <;> rfl
  | srcByte i => simp only [State.writeLoc, State.storeUnlessBusy]; split <;> rfl
  | nodeWord i k => rfl
  | ctabWord c k => rfl
  | outByte j => rfl

/-- While BUSY = 1 a write changes at most CTRL, DONE and OVR (20_memory.md R52). -/
theorem writeLoc_busy (s : State) (n : BusSize) (v : Word) (l : Loc) (h : s.busy = true) :
    s.writeLoc n v l =
      { s with ie := (s.writeLoc n v l).ie, done := (s.writeLoc n v l).done, ovr := (s.writeLoc n v l).ovr } := by
  cases l with
  | reg r =>
    cases r <;> simp only [State.writeLoc, State.writeReg, storeUnlessBusy_busy h, issue_busy h] <;> rfl
  | ftabSymWord i => simp only [State.writeLoc, storeUnlessBusy_busy h]
  | ftabCntWord i => simp only [State.writeLoc, storeUnlessBusy_busy h]
  | srcByte i => simp only [State.writeLoc, storeUnlessBusy_busy h]
  | nodeWord i k => rfl
  | ctabWord c k => rfl
  | outByte j => rfl

/-! ### The locations HOST may not write -/

/-- An accepted access below the byte windows has four bytes (20_memory.md R48). -/
theorem size_of_accepted_word {p : Config.Params} {a : Word} {n : BusSize} (h : busAccepts p a.toNat (sizeBytes n)) (ha : a.toNat < 0x8000) : n = .b4 := by
  by_contra hn
  have h3 : sizeBytes n ≠ 4 := fun e => hn ((sizeBytes_eq_four n).1 e)
  unfold busAccepts at h
  omega

theorem wordLoc_register (a : Nat) (h : a < 64) : wordLoc a = (regAt (a/4)).map .reg := by simp [wordLoc, h]

/-- The result registers and the NODE, CTAB and OUT windows: reads are draws while BUSY = 1, writes are ignored. -/
theorem resultArea_of_locate {p : Config.Params} {a : Word} {n : BusSize} {l : Loc} (hp : paramsWellFormed p) (hl : locate p a n = some l)
   (h : (0x02C ≤ a.toNat ∧ a.toNat < 0x040) ∨ (0x2000 ≤ a.toNat ∧ a.toNat < 0x8000) ∨ 0x02000000 ≤ a.toNat) :
   isResultArea l = true ∧ (∀ (s : State) (v : Word) , s.writeLoc n v l = s) := by
  obtain ⟨_, h₂, _⟩ := hp
  have h4 := sizeBytes_cases n
  unfold locate at hl
  split at hl
  · cases hl
  · rename_i hm
    simp only [ne_eq, not_not] at hm
    split at hl
    · split at hl
      · rename_i hn
        subst hn
        simp only [sizeBytes] at hm
        rcases h with h | h | h
        · rw [wordLoc_register _ (by omega)] at hl
          have : a.toNat / 4 = 11 ∨ a.toNat / 4 = 12 ∨ a.toNat / 4 = 13 ∨ a.toNat / 4 = 14 ∨ a.toNat / 4 = 15 := by omega
          rcases this with e | e | e | e | e <;> rw [e] at hl <;> cases hl <;> exact ⟨rfl, fun s v => rfl⟩
        · unfold wordLoc at hl
          rw [if_neg (by omega), if_neg (by omega)] at hl
          split at hl
          · cases hl; exact ⟨rfl, fun s v => rfl⟩
          · split at hl
            · cases hl; exact ⟨rfl, fun s v => rfl⟩
            · cases hl
        · omega
      · cases hl
    · unfold byteLoc srcBase outBase at hl
      rw [if_neg (by omega)] at hl
      split at hl
      · cases hl; exact ⟨rfl, fun s v => rfl⟩
      · cases hl

/-- A write to a read-only location changes nothing (20_memory.md R51). -/
theorem writeLoc_of_readOnly {p : Config.Params} {a : Word} {n : BusSize} {l : Loc} (hp : paramsWellFormed p) (hl : locate p a n = some l)
   (h : a.toNat < 0x00C ∨ (0x018 ≤ a.toNat ∧ a.toNat < 0x024) ∨ (0x02C ≤ a.toNat ∧ a.toNat < 0x040) ∨
        (0x2000 ≤ a.toNat ∧ a.toNat < 0x8000) ∨ 0x02000000 ≤ a.toNat) (s : State) (v : Word) : s.writeLoc n v l = s := by
  rcases h with h | h | h
  case inr.inr => exact (resultArea_of_locate hp hl h).2 s v
  all_goals
    have h4 := sizeBytes_cases n
    unfold locate at hl
    split at hl
    · cases hl
    · rename_i hm
      simp only [ne_eq, not_not] at hm
      rw [if_pos (by omega)] at hl
      split at hl
      · rename_i hn
        subst hn
        simp only [sizeBytes] at hm
        rw [wordLoc_register _ (by omega)] at hl
        have : a.toNat / 4 = 0 ∨ a.toNat / 4 = 1 ∨ a.toNat / 4 = 2 ∨ a.toNat / 4 = 6 ∨ a.toNat / 4 = 7 ∨ a.toNat / 4 = 8 := by omega
        rcases this with e | e | e | e | e | e <;> rw [e] at hl <;> cases hl <;> rfl
      · cases hl

end Sys2Proof.Machine
end

