-- ==== Sys2Proof/Laws/Decode.lean ====
section
/-! SUPPORT. The laws of the decoder and the encoder of a command word. -/

namespace Sys2Proof

/-- A word is its MBZ and its OP (30_encoding.md R66). -/
theorem word_eq_mbz_op (w : Word) : w = cmdMbz w ++ cmdOp w := by
  apply BitVec.eq_of_getLsbD_eq
  intro i hi
  simp only [cmdMbz, cmdOp, BitVec.getLsbD_append, BitVec.getLsbD_extractLsb']
  split
  · simp; omega
  · rename_i h
    simp [show i - 4 < 28 by omega, show 4 + (i - 4) = i by omega]

theorem cmdMbz_append (m : BitVec 28) (o : BitVec 4) : cmdMbz (m ++ o) = m := by
  apply BitVec.eq_of_getLsbD_eq
  intro i hi
  simp only [cmdMbz, BitVec.getLsbD_extractLsb', BitVec.getLsbD_append]
  simp [show ¬ 4 + i < 4 by omega, hi]

theorem cmdOp_append (m : BitVec 28) (o : BitVec 4) : cmdOp (m ++ o) = o := by
  apply BitVec.eq_of_getLsbD_eq
  intro i hi
  simp only [cmdOp, BitVec.getLsbD_extractLsb', BitVec.getLsbD_append]
  simp [hi]

theorem decodeOp_eq_ok_iff (op : BitVec 4) (i : Instr) : decodeOp op = .ok i ↔ op = opOf i := by
  cases i <;> revert op <;> decide

/-- The decoder gives a command exactly where MBZ is zero and OP is that command's number (30_encoding.md R67). -/
theorem decode_eq_ok_iff (w : Word) (i : Instr) : decode w = .ok i ↔ cmdMbz w = 0 ∧ cmdOp w = opOf i := by
  unfold decode
  split
  · rename_i h
    rw [decodeOp_eq_ok_iff]
    exact (and_iff_right h).symm
  · rename_i h
    simp only [reduceCtorEq, false_iff, not_and]
    exact fun h' => absurd h' h

theorem decode_ok_iff_eq_encode (w : Word) (i : Instr) : decode w = .ok i ↔ w = encode i := by
  rw [decode_eq_ok_iff]
  constructor
  · rintro ⟨hm, ho⟩
    rw [word_eq_mbz_op w, hm, ho, encode]
  · rintro rfl
    exact ⟨cmdMbz_append _ _, cmdOp_append _ _⟩

theorem decode_encode (i : Instr) : decode (encode i) = .ok i := (decode_ok_iff_eq_encode _ _).2 rfl

theorem decode_error_of_ne {w : Word} (h : ∀ i, w ≠ encode i) : ∃ e, decode w = .error e := by
  cases hd : decode w with
  | ok i => exact absurd ((decode_ok_iff_eq_encode w i).1 hd) (h i)
  | error e => exact ⟨e, rfl⟩

/-- The four cases of a command word (30_encoding.md R67). -/
theorem decode_word_cases (w : Word) : (w = 1 ∧ decode w = .ok .buildTree) ∨ (w = 2 ∧ decode w = .ok .buildCodes) ∨
   (w = 3 ∧ decode w = .ok .encode) ∨ (w ≠ 1 ∧ w ≠ 2 ∧ w ≠ 3 ∧ ∃ e, decode w = .error e) := by
  cases h : decode w with
  | ok i =>
    have := (decode_ok_iff_eq_encode w i).1 h
    cases i
    · exact .inl ⟨this.trans (by decide), rfl⟩
    · exact .inr (.inl ⟨this.trans (by decide), rfl⟩)
    · exact .inr (.inr (.inl ⟨this.trans (by decide), rfl⟩))
  | error e =>
    refine .inr (.inr (.inr ⟨?_, ?_, ?_, e, rfl⟩)) <;> rintro rfl <;> revert h
    · rw [show decode 1 = .ok .buildTree by decide]; simp
    · rw [show decode 2 = .ok .buildCodes by decide]; simp
    · rw [show decode 3 = .ok .encode by decide]; simp

/-- An illegal word is refused (30_encoding.md R68). -/
theorem decode_error_of_illegal {w : Word} (h : w.extractLsb' 0 4 = 0 ∨ 4 ≤ (w.extractLsb' 0 4).toNat ∨ w.extractLsb' 4 28 ≠ 0) :
    ∃ e, decode w = .error e := by
  rcases decode_word_cases w with ⟨rfl, _⟩ | ⟨rfl, _⟩ | ⟨rfl, _⟩ | ⟨h1, h2, h3, e⟩
  · exact absurd h (by decide)
  · exact absurd h (by decide)
  · exact absurd h (by decide)
  · exact e

end Sys2Proof
end

