-- ==== Sys2Proof/Laws/Encode.lean ====
section
/-! SUPPORT. The laws of ENCODE: its checks, the stream, the header length and the parse of the header. -/

namespace Sys2Proof.Machine

open Sys2Proof.Safety

/-! ### The checks -/

theorem scanSource_ok_iff (s : State) (i : Nat) (l : List Byte) :
    scanSource s i l = .ok () ↔ ∀ b ∈ l, (s.ctabAt b.toNat).valid = true := by
  induction l generalizing i with
  | nil => simp [scanSource]
  | cons b l ih =>
    unfold scanSource
    split
    · rename_i h
      simp [ih, h]
    · rename_i h
      simp [raise, h]

/-- The first byte with no codeword decides the error (43_bitstream_encoder.md R113). -/
theorem scanSource_append (s : State) (i : Nat) (l m : List Byte) (h : ∀ b ∈ l, (s.ctabAt b.toNat).valid = true) :
    scanSource s i (l ++ m) = scanSource s (i + l.length) m := by
  induction l generalizing i with
  | nil => simp
  | cons b l ih =>
    rw [List.cons_append, scanSource, if_pos (h b (by simp)), ih (i + 1) fun x hx => h x (by simp [hx])]
    congr 1
    simp only [List.length_cons]
    omega

theorem scanSource_raises {s : State} {i : Nat} {l : List Byte} {e : CmdFail} (h : scanSource s i l = .error e) :
    ∃ c, e = .raised c ∧ c.name = .unknownSymbol := by
  induction l generalizing i with
  | nil => cases h
  | cons b l ih =>
    unfold scanSource at h
    split at h
    · exact ih h
    · cases h; exact ⟨_, rfl, rfl⟩

theorem mem_srcList (s : State) (b : Byte) : b ∈ s.srcList ↔ ∃ i, i < s.srcLen.toNat ∧ s.srcAt i = b := by
  simp [State.srcList]

theorem scanSource_srcList_ok_iff (s : State) :
    scanSource s 0 s.srcList = .ok () ↔ ∀ i, i < s.srcLen.toNat → (s.ctabAt (s.srcAt i).toNat).valid = true := by
  rw [scanSource_ok_iff]
  constructor
  · exact fun h i hi => h _ ((mem_srcList s _).2 ⟨i, hi, rfl⟩)
  · intro h b hb
    obtain ⟨i, hi, rfl⟩ := (mem_srcList s b).1 hb
    exact h i hi

/-! ### The stream -/

theorem headerBits_eq (s : State) : headerBits s = specHeader s := rfl

theorem payloadBits_eq (s : State) : payloadBits s = specPayload s := by
  simp [payloadBits, specPayload, State.srcList, List.flatMap_map]

theorem streamBits_eq (s : State) : streamBits s = specStream s := by
  simp [streamBits, specStream, headerBits_eq, payloadBits_eq]

theorem specStream_length (s : State) :
    (specStream s).length = 16 + (specHeader s).length + (specPayload s).length := by
  simp [specStream, Nat.add_assoc]

/-- The result of ENCODE (43_bitstream_encoder.md R120, R121). -/
def encodedState (s : State) : State :=
  { s with
    out := Table.writeSpan s.out (packBytes (specStream s))
    hdrBitLen := BitVec.ofNat 16 (specHeader s).length
    outBitLen := BitVec.ofNat 32 (specStream s).length
    outValid := true }

/-- All that ENCODE can answer, in the order of its checks. -/
theorem encodeSource_cases (s : State) :
    (s.codesValid = false ∧ encodeSource s = raise .sequenceError 2 0) ∨
    (s.codesValid = true ∧ s.params.maxSrcLen < s.srcLen.toNat ∧ encodeSource s = raise .invalidInput 5 0) ∨
    (∃ e, s.codesValid = true ∧ s.srcLen.toNat ≤ s.params.maxSrcLen ∧ scanSource s 0 s.srcList = .error e ∧
      encodeSource s = .error e) ∨
    (EncodeReady s ∧ s.params.outCapBytes < byteCount (specStream s).length ∧
      encodeSource s = raise .outputOverflow (specStream s).length 0) ∨
    (EncodeReady s ∧ byteCount (specStream s).length ≤ s.params.outCapBytes ∧
      encodeSource s = .ok (encodedState s)) := by
  unfold encodeSource
  by_cases h₁ : s.codesValid = false
  · exact .inl ⟨h₁, by rw [if_pos h₁]⟩
  · have h₁' : s.codesValid = true := by simpa using h₁
    by_cases h₂ : s.srcLen.toNat > s.params.maxSrcLen
    · exact .inr (.inl ⟨h₁', h₂, by rw [if_neg h₁, if_pos h₂]⟩)
    · rw [if_neg h₁, if_neg h₂]
      cases h₃ : scanSource s 0 s.srcList with
      | error e => exact .inr (.inr (.inl ⟨e, h₁', by omega, rfl, rfl⟩))
      | ok u =>
        have hr : EncodeReady s := ⟨h₁', by omega, (scanSource_srcList_ok_iff s).1 h₃⟩
        simp only [streamBits_eq]
        by_cases h₄ : byteCount (specStream s).length > s.params.outCapBytes
        · exact .inr (.inr (.inr (.inl ⟨hr, h₄, by rw [if_pos h₄]⟩)))
        · exact .inr (.inr (.inr (.inr ⟨hr, by omega, by rw [if_neg h₄]; rfl⟩)))

theorem encodeSource_ready {s : State} (h : EncodeReady s) :
    encodeSource s =
      if byteCount (specStream s).length > s.params.outCapBytes then raise .outputOverflow (specStream s).length 0
      else .ok (encodedState s) := by
  obtain ⟨h₁, h₂, h₃⟩ := h
  unfold encodeSource
  rw [if_neg (by simp [h₁]), if_neg (by omega), (scanSource_srcList_ok_iff s).2 h₃]
  simp only [streamBits_eq]
  rfl

@[simp] theorem packBytes_length (b : Bits) : (packBytes b).length = byteCount b.length := by simp [packBytes]

/-- OUT after a successful ENCODE: the packed stream, and every later byte unchanged (43_bitstream_encoder.md R120). -/
theorem encodedState_outAt (s : State) (j : Nat) :
    (encodedState s).outAt j =
      if j < byteCount (specStream s).length then packByte (specStream s) j else s.outAt j := by
  unfold State.outAt encodedState
  simp only [Table.find_writeSpan, packBytes_length]
  split
  · rename_i h
    simp [packBytes, h]
  · rfl

/-! ### The header length -/

theorem headerEntry_length (s : State) (c : Nat) :
    (headerEntry s c).length = if (s.ctabAt c).valid then 16 + (s.codeOf c).length else 0 := by
  unfold headerEntry State.codeOf
  split
  · simp_all
    omega
  · simp_all

theorem specHeader_length (s : State) :
    (specHeader s).length =
      ∑ c ∈ Finset.range 256, if (s.ctabAt c).valid then 16 + (s.codeOf c).length else 0 := by
  rw [← headerBits_eq, headerBits, List.length_flatMap]
  simp only [headerEntry_length]
  rfl

/-- What a symbol's entry costs in the header, from its codeword. -/
theorem treeEntry_cost {t : HTree} (ht : (symbols t).Nodup) (c : Byte) :
    (if (treeEntry t c).valid then 16 + (codeBits (treeEntry t c)).length else 0) =
      match codeword t c with
      | some p => 16 + p.length
      | none => 0 := by
  rw [treeEntry_bits ht]
  rcases Option.eq_none_or_eq_some (codeword t c) with h | ⟨p, h⟩ <;> simp [treeEntry, h]

/-- The header length of a tree's code table: the sum over its symbols. -/
theorem specHeader_length_tree {s : State} {t : HTree} (h : BlockHoldsCodes s t) :
    (specHeader s).length =
      ∑ c ∈ Finset.range 256, match codeword t (BitVec.ofNat 8 c) with
        | some p => 16 + p.length
        | none => 0 := by
  rw [specHeader_length]
  refine Finset.sum_congr rfl fun c hr => ?_
  have hc := h.2 (BitVec.ofNat 8 c)
  rw [BitVec.toNat_ofNat, Nat.mod_eq_of_lt (by simpa using hr)] at hc
  rw [State.codeOf, hc, treeEntry_cost h.1]

/-- The header of a tree's code table is at most 36991 bits (43_bitstream_encoder.md R116). -/
theorem specHeader_length_le {s : State} {t : HTree} (h : BlockHoldsCodes s t) : (specHeader s).length ≤ 36991 := by
  have hn := h.1
  have hl := length_le_of_nodup hn
  rw [specHeader_length_tree h]
  cases t with
  | leaf b w =>
    rw [Finset.sum_eq_single b.toNat]
    · simp [codeword]
    · intro c hc hne
      have : b ≠ BitVec.ofNat 8 c := by
        rintro rfl
        rw [Finset.mem_range] at hc
        rw [BitVec.toNat_ofNat] at hne
        omega
      simp [codeword, this]
    · intro hb
      have : b.toNat < 256 := b.isLt
      simp at hb
      omega
  | node l r =>
    change pathSum (.node l r) 16 ≤ 36991
    have := pathSum_le hn 16
    have hsq : (symbols (.node l r)).length * (symbols (.node l r)).length ≤ 256 * 256 := Nat.mul_le_mul hl hl
    omega

/-- No codeword of a valid code table is longer than 255 bits. -/
theorem codeOf_length_le (s : State) (c : Nat) : (s.codeOf c).length ≤ 255 := by
  have : (s.ctabAt c).len.toNat < 256 := (s.ctabAt c).len.isLt
  simp only [State.codeOf, codeBits_length]
  omega

theorem specPayload_length_le (s : State) : (specPayload s).length ≤ 255 * s.srcLen.toNat := by
  unfold specPayload
  rw [List.length_flatMap]
  have : ∀ l : List Nat, (l.map fun i => (s.codeOf (s.srcAt i).toNat).length).sum ≤ 255 * l.length := fun l => by
    induction l with
    | nil => simp
    | cons i l ih =>
      have := codeOf_length_le s (s.srcAt i).toNat
      simp only [List.map_cons, List.sum_cons, List.length_cons]
      omega
  simpa using this (List.range s.srcLen.toNat)

/-! ### The parse of the header -/

theorem foldl_bits_append (b : Bits) (v : Nat) :
    List.foldl (fun v b => 2 * v + b.toNat) v b = v * 2 ^ b.length + bitsValue b := by
  unfold bitsValue
  induction b generalizing v with
  | nil => simp
  | cons x b ih =>
    simp only [List.foldl_cons, List.length_cons]
    rw [ih (2 * v + x.toNat), ih (2 * 0 + x.toNat)]
    ring

theorem bitsValue_append (a b : Bits) : bitsValue (a ++ b) = bitsValue a * 2 ^ b.length + bitsValue b := by
  conv_lhs => unfold bitsValue
  rw [List.foldl_append, foldl_bits_append b]
  rfl

theorem msbBits_succ (n v : Nat) : msbBits (n + 1) v = msbBits n (v / 2) ++ [v.testBit 0] := by
  unfold msbBits
  rw [List.range_succ, List.map_append]
  congr 1
  · refine List.map_congr_left fun k hk => ?_
    rw [List.mem_range] at hk
    rw [Nat.testBit_div_two]
    congr 1
    omega
  · simp

/-- A number of n bits, most significant bit first, has its value (00_scope.md R12). -/
theorem bitsValue_msbBits (n v : Nat) (h : v < 2 ^ n) : bitsValue (msbBits n v) = v := by
  induction n generalizing v with
  | zero => simp [msbBits, bitsValue]; omega
  | succ n ih =>
    rw [msbBits_succ, bitsValue_append, ih (v / 2) (by rw [pow_succ] at h; omega)]
    simp only [List.length_singleton, bitsValue, List.foldl_cons, List.foldl_nil, Nat.testBit_zero]
    rcases Nat.mod_two_eq_zero_or_one v with e | e <;> simp [e] <;> omega

/-- The records of the valid symbols among `l`. -/
def pairsOf (s : State) (l : List Nat) : List (Nat × Bits) :=
  l.filterMap fun c => if (s.ctabAt c).valid then some (c, s.codeOf c) else none

/-- The parse reads back the entries it is given (43_bitstream_encoder.md R122). -/
theorem parseEntries_header (s : State) (hb : Nat) (l : List Nat) (hl : ∀ c ∈ l, c < 256) (tail : Bits) (used fuel : Nat)
    (hu : used + (l.flatMap (headerEntry s)).length = hb) (hf : hb < used + fuel) :
    parseEntries fuel hb used (l.flatMap (headerEntry s) ++ tail) = (pairsOf s l, hb) := by
  induction l generalizing used fuel with
  | nil =>
    simp only [List.flatMap_nil, List.length_nil, Nat.add_zero] at hu
    subst hu
    cases fuel <;> simp [parseEntries, pairsOf]
  | cons c l ih =>
    by_cases hv : (s.ctabAt c).valid = true
    · have hc : c < 256 := hl c (by simp)
      have he : headerEntry s c = msbBits 8 (s.ctabAt c).len.toNat ++ msbBits 8 c ++ s.codeOf c := by
        simp [headerEntry, hv, State.codeOf]
      have hlen : (s.codeOf c).length = (s.ctabAt c).len.toNat := by simp [State.codeOf]
      have hlt : (s.ctabAt c).len.toNat < 2 ^ 8 := (s.ctabAt c).len.isLt
      obtain ⟨fuel, rfl⟩ := Nat.exists_eq_add_of_le' (show 1 ≤ fuel by omega)
      rw [List.flatMap_cons, he] at hu ⊢
      simp only [List.length_append, msbBits_length, hlen] at hu
      rw [parseEntries, if_pos (by omega)]
      dsimp only
      have e₁ : (msbBits 8 (s.ctabAt c).len.toNat ++ msbBits 8 c ++ s.codeOf c ++ l.flatMap (headerEntry s) ++ tail) =
          msbBits 8 (s.ctabAt c).len.toNat ++ (msbBits 8 c ++ (s.codeOf c ++ (l.flatMap (headerEntry s) ++ tail))) := by
        simp only [List.append_assoc]
      rw [e₁]
      have t₁ : (msbBits 8 (s.ctabAt c).len.toNat ++
          (msbBits 8 c ++ (s.codeOf c ++ (l.flatMap (headerEntry s) ++ tail)))).take 8 =
          msbBits 8 (s.ctabAt c).len.toNat := List.take_left' (msbBits_length 8 _)
      have t₂ : (msbBits 8 (s.ctabAt c).len.toNat ++
          (msbBits 8 c ++ (s.codeOf c ++ (l.flatMap (headerEntry s) ++ tail)))).drop 8 =
          msbBits 8 c ++ (s.codeOf c ++ (l.flatMap (headerEntry s) ++ tail)) := List.drop_left' (msbBits_length 8 _)
      have t₃ : (msbBits 8 (s.ctabAt c).len.toNat ++
          (msbBits 8 c ++ (s.codeOf c ++ (l.flatMap (headerEntry s) ++ tail)))).drop 16 =
          s.codeOf c ++ (l.flatMap (headerEntry s) ++ tail) := by
        rw [show (16 : Nat) = 8 + 8 from rfl, ← List.drop_drop, t₂]
        exact List.drop_left' (msbBits_length 8 _)
      have t₄ : (msbBits 8 (s.ctabAt c).len.toNat ++
          (msbBits 8 c ++ (s.codeOf c ++ (l.flatMap (headerEntry s) ++ tail)))).drop (16 + (s.ctabAt c).len.toNat) =
          l.flatMap (headerEntry s) ++ tail := by
        rw [← List.drop_drop, t₃]
        exact List.drop_left' hlen
      rw [t₁, t₂, List.take_left' (msbBits_length 8 c), bitsValue_msbBits 8 _ hlt, bitsValue_msbBits 8 c hc, t₃,
        List.take_left' hlen, t₄, ih (fun x hx => hl x (by simp [hx])) _ _ (by omega) (by omega)]
      simp [pairsOf, hv]
    · have he : headerEntry s c = [] := by simp [headerEntry, hv]
      rw [List.flatMap_cons, he, List.nil_append] at hu ⊢
      rw [ih (fun x hx => hl x (by simp [hx])) _ _ hu hf]
      simp [pairsOf, hv]

/-- The length of header entries, by their records. -/
theorem headerEntries_length (s : State) (l : List Nat) : (l.flatMap (headerEntry s)).length =
   16 * (pairsOf s l).length + ((pairsOf s l).map fun x => x.2.length).sum := by
  induction l with
  | nil => rfl
  | cons c l ih =>
    rw [List.flatMap_cons, List.length_append, ih, headerEntry_length]
    by_cases hv : (s.ctabAt c).valid = true
    · simp [pairsOf, hv]; omega
    · simp [pairsOf, hv]

theorem mem_codePairs (s : State) (x : Nat × Bits) : x ∈ codePairs s ↔ x.1 < 256 ∧ (s.ctabAt x.1).valid = true ∧ x.2 = s.codeOf x.1 := by
  obtain ⟨c, p⟩ := x
  simp only [codePairs, List.mem_filterMap, List.mem_range, Option.ite_none_right_eq_some, Option.some.injEq, Prod.mk.injEq]
  constructor
  · rintro ⟨a, h1, h2, rfl, rfl⟩; exact ⟨h1, h2, rfl⟩
  · rintro ⟨h1, h2, rfl⟩; exact ⟨c, h1, h2, rfl, rfl⟩

theorem specHeader_congr {s t : State} (h : ∀ c, c < 256 → s.ctabAt c = t.ctabAt c) : specHeader s = specHeader t := by
  unfold specHeader
  rw [List.flatMap_def, List.flatMap_def]
  congr 1
  apply List.map_congr_left
  intro c hc
  simp only [State.codeOf, h c (List.mem_range.1 hc)]

theorem specPayload_congr {s t : State} (h : ∀ c, c < 256 → s.ctabAt c = t.ctabAt c) (hl : s.srcLen = t.srcLen)
   (hs : ∀ i, i < s.srcLen.toNat → s.srcAt i = t.srcAt i) : specPayload s = specPayload t := by
  unfold specPayload
  rw [List.flatMap_def, List.flatMap_def, ← hl]
  congr 1
  apply List.map_congr_left
  intro c hc
  simp only [State.codeOf, hs c (List.mem_range.1 hc), h _ (t.srcAt c).isLt]

theorem scanSource_congr {s t : State} (h : ∀ c, c < 256 → s.ctabAt c = t.ctabAt c) (i : Nat) (l : List Byte) : scanSource s i l = scanSource t i l := by
  induction l generalizing i with
  | nil => rfl
  | cons b l ih => simp only [scanSource, h _ b.isLt, ih]

/-- A code table has as many records as its tree has leaves. -/
theorem codePairs_length {s : State} {t : HTree} (h : BlockHoldsCodes s t) : (codePairs s).length = (symbols t).length := by
  obtain ⟨hn, hc⟩ := h
  have h1 : (codePairs s).map Prod.fst = (List.range 256).filter fun c => (s.ctabAt c).valid := by
    rw [codePairs]
    generalize List.range 256 = l
    induction l with
    | nil => rfl
    | cons c l ih => by_cases hv : (s.ctabAt c).valid = true <;> simp [hv, ih]
  have hp : ((codePairs s).map Prod.fst).Perm ((symbols t).map BitVec.toNat) := by
    rw [List.perm_ext_iff_of_nodup]
    · intro c
      rw [h1]
      simp only [List.mem_filter, List.mem_range, List.mem_map]
      constructor
      · rintro ⟨hc1, hc2⟩
        refine ⟨BitVec.ofNat 8 c, ?_, by simp; omega⟩
        rw [← treeEntry_valid_iff, ← hc]
        simpa [Nat.mod_eq_of_lt hc1] using hc2
      · rintro ⟨b, hb, rfl⟩
        exact ⟨b.isLt, by rw [hc, treeEntry_valid_iff]; exact hb⟩
    · rw [h1]; exact List.nodup_range.filter _
    · exact hn.map fun a b e => BitVec.eq_of_toNat_eq e
  have := hp.length_eq
  simpa using this

end Sys2Proof.Machine
end

