-- ==== Sys2Proof/Laws/PerInstr.lean ====
section
/-! SUPPORT. Statements made per instruction: each command's word is its row of spec/opcode_table.json, and the decoder gives
the command back from it, through the table's numbering too. -/

namespace Sys2Proof.Laws.TableWord

/-- The word of a command in spec/opcode_table.json (30_encoding.md R67). -/
def tableWord : Instr → Nat
  | .buildTree => 0x00000001
  | .buildCodes => 0x00000002
  | .encode => 0x00000003

/-- The encoder gives the table's word, it is well formed, and the decoder reads the command from it. -/
def Statement (i : Instr) : Prop :=
  (Sys2Proof.encode i).toNat = tableWord i ∧ cmdWellFormed (Sys2Proof.encode i) = true ∧
  decode (Sys2Proof.encode i) = .ok i ∧ decodeTableWord 32 (tableWord i) = some i

theorem buildTree : Statement .buildTree := by unfold Statement; decide

theorem buildCodes : Statement .buildCodes := by unfold Statement; decide

theorem encode : Statement .encode := by unfold Statement; decide

end Sys2Proof.Laws.TableWord
end

