-- ==== Sys2Proof/Laws/Step.lean ====
section
/-! SUPPORT. The laws of a step: one equation per kind of event, and all that a completion step can do. -/

namespace Sys2Proof.Machine

open Sys2Proof.Safety

/-! ### One equation per event -/

theorem step_quiet {s : State} (h : s.inbox = []) : step s = engineTurn s := by
  simp [step, h, quietTurn]

theorem step_event {s : State} {e : Event} {rest : List Event} (h : s.inbox = e :: rest) :
    step s = runEvent { s with inbox := rest } e := by
  simp [step, h]

theorem step_hostRead {s : State} {a : Word} {n : BusSize} {rest : List Event} (h : s.inbox = .hostRead a n :: rest) :
    step s = .next (State.memRead { s with inbox := rest } a n) := by
  rw [step_event h]; rfl

theorem step_hostWrite {s : State} {a : Word} {n : BusSize} {v : Word} {rest : List Event}
    (h : s.inbox = .hostWrite a n v :: rest) : step s = .next (State.memWrite { s with inbox := rest } a n v) := by
  rw [step_event h]; rfl

theorem step_engineStep {s : State} {rest : List Event} (h : s.inbox = .engineStep :: rest) :
    step s = engineTurn { s with inbox := rest } := by
  rw [step_event h]; rfl

theorem step_resetInput {s : State} {rest : List Event} (h : s.inbox = .resetInput :: rest) :
    step s = .next (State.onReset { s with inbox := rest }) := by
  rw [step_event h]; rfl

theorem engineTurn_busy {s : State} (h : s.busy = true) : engineTurn s = engineComplete s := by simp [engineTurn, h]

theorem engineTurn_idle {s : State} (h : s.busy = false) : engineTurn s = .next s := by simp [engineTurn, h]

theorem engineComplete_ok {s : State} {i : Instr} (h : decode s.cmdLatch = .ok i) : engineComplete s = exec i s := by
  simp [engineComplete, h]

theorem engineComplete_error {s : State} {e : DecodeError} (h : decode s.cmdLatch = .error e) :
    engineComplete s = completeIllegal s := by
  simp [engineComplete, h]

/-! ### Completions -/

/-- The updates of a command that succeeds: one of the three results. -/
inductive Succeeds (s : State) : State → Prop where
  | tree (h : TableValid s) : Succeeds s (builtState s)
  | codes (codes : CodeList) (hv : s.treeValid = true) (hn : s.nodeCount ≠ 0)
      (h : assignCodes s (s.nodeCount.toNat - 1) = .ok codes) : Succeeds s (codedState s codes)
  | stream (h : EncodeReady s) (hf : byteCount (specStream s).length ≤ s.params.outCapBytes) :
      Succeeds s (encodedState s)

theorem exec_eq_finish (i : Instr) (s : State) :
    exec i s = finish s (match i with
      | .buildTree => buildTree s
      | .buildCodes => buildCodes s
      | .encode => encodeSource s) := by
  cases i <;> rfl

/-- Where a command gives a next state, it succeeded with one of the three results, or raised an error. -/
theorem exec_cases {i : Instr} {s t : State} (h : exec i s = .next t) :
    (∃ u, Succeeds s u ∧ t = u.succeed) ∨ (∃ e, t = s.fail e) := by
  rw [exec_eq_finish] at h
  rcases finish_cases h with ⟨u, hu, rfl⟩ | ⟨e, _, rfl⟩
  · refine .inl ⟨u, ?_, rfl⟩
    cases i with
    | buildTree =>
      rcases buildTree_cases s with ⟨e, _, he⟩ | ⟨hv, he⟩
      · simp [he] at hu
      · simp only [he, Except.ok.injEq] at hu
        exact hu ▸ .tree hv
    | buildCodes =>
      rcases buildCodes_cases s with ⟨-, he⟩ | ⟨-, -, he⟩ | ⟨e, -, -, -, he⟩ | ⟨codes, hv, hn, hc, he⟩
      · simp [he, raise] at hu
      · simp [he] at hu
      · simp [he] at hu
      · simp only [he, Except.ok.injEq] at hu
        exact hu ▸ .codes codes hv hn hc
    | encode =>
      rcases encodeSource_cases s with ⟨-, he⟩ | ⟨-, -, he⟩ | ⟨e, -, -, -, he⟩ | ⟨-, -, he⟩ | ⟨hr, hf, he⟩
      · simp [he, raise] at hu
      · simp [he, raise] at hu
      · simp [he] at hu
      · simp [he, raise] at hu
      · simp only [he, Except.ok.injEq] at hu
        exact hu ▸ .stream hr hf
  · exact .inr ⟨e, rfl⟩

/-- All that a completion step can do (40_command_protocol.md R80). -/
theorem engineComplete_cases {s t : State} (h : engineComplete s = .next t) :
    (∃ u, Succeeds s u ∧ t = u.succeed) ∨ (∃ e, t = s.fail e) := by
  cases hd : decode s.cmdLatch with
  | ok i =>
    rw [engineComplete_ok hd] at h
    exact exec_cases h
  | error e =>
    rw [engineComplete_error hd, completeIllegal_eq] at h
    injection h with h
    exact .inr ⟨_, h.symm⟩

/-- All that a step can do. -/
theorem step_cases {s t : State} (h : step s = .next t) :
    (∃ a n rest, s.inbox = .hostRead a n :: rest ∧ t = State.memRead { s with inbox := rest } a n) ∨
    (∃ a n v rest, s.inbox = .hostWrite a n v :: rest ∧ t = State.memWrite { s with inbox := rest } a n v) ∨
    (∃ rest, s.inbox = .resetInput :: rest ∧ t = State.onReset { s with inbox := rest }) ∨
    (∃ rest, (s.inbox = rest ∨ s.inbox = .engineStep :: rest) ∧ s.busy = false ∧ t = { s with inbox := rest }) ∨
    (∃ rest, (s.inbox = rest ∨ s.inbox = .engineStep :: rest) ∧ s.busy = true ∧
      engineComplete { s with inbox := rest } = .next t) := by
  cases hi : s.inbox with
  | nil =>
    rw [step_quiet hi] at h
    have hs : { s with inbox := [] } = s := by rw [← hi]
    by_cases hb : s.busy = true
    · rw [engineTurn_busy hb] at h
      exact .inr (.inr (.inr (.inr ⟨[], .inl rfl, hb, by rw [hs]; exact h⟩)))
    · rw [Bool.not_eq_true] at hb
      rw [engineTurn_idle hb] at h
      injection h with h
      exact .inr (.inr (.inr (.inl ⟨[], .inl rfl, hb, by rw [hs]; exact h.symm⟩)))
  | cons e rest =>
    cases e with
    | hostRead a n =>
      rw [step_hostRead hi] at h
      injection h with h
      exact .inl ⟨a, n, rest, rfl, h.symm⟩
    | hostWrite a n v =>
      rw [step_hostWrite hi] at h
      injection h with h
      exact .inr (.inl ⟨a, n, v, rest, rfl, h.symm⟩)
    | engineStep =>
      rw [step_engineStep hi] at h
      by_cases hb : s.busy = true
      · rw [engineTurn_busy (by exact hb)] at h
        exact .inr (.inr (.inr (.inr ⟨rest, .inr rfl, hb, h⟩)))
      · rw [Bool.not_eq_true] at hb
        rw [engineTurn_idle (by exact hb)] at h
        injection h with h
        exact .inr (.inr (.inr (.inl ⟨rest, .inr rfl, hb, h.symm⟩)))
    | resetInput =>
      rw [step_resetInput hi] at h
      injection h with h
      exact .inr (.inr (.inl ⟨rest, rfl, h.symm⟩))

/-! ### Transactions and commands, by what they answer -/

/-- An OKAY read that is no draw answers the value of its location. -/
theorem step_read_value {s : State} {rest : List Event} {a : Word} {n : BusSize} {l : Loc} {d : Word}
   (h : s.inbox = .hostRead a n :: rest) (hl : locate s.params a n = some l) (hr : s.busy = false ∨ isResultArea l = false)
   (hd : s.readLoc n l = d) :
   step s = .next { s with inbox := rest, answer := some (.readAnswer .okay d) } := by
  rw [step_hostRead h, memRead_value (s := { s with inbox := rest }) (l := l) hl hr, ← hd]
  cases l <;> rfl

/-- A read of a result area while BUSY = 1 is answered with a draw (20_memory.md R53). -/
theorem step_read_draw {s : State} {rest : List Event} {a : Word} {n : BusSize} {l : Loc}
   (h : s.inbox = .hostRead a n :: rest) (hb : s.busy = true) (hl : locate s.params a n = some l) (hr : isResultArea l = true) :
   step s = .next { s with inbox := rest, draws := s.draws + 1, answer := some (.readAnswer .okay (lowBytes n (Config.busyRead s.draws))) } := by
  rw [step_hostRead h, memRead_draw (s := { s with inbox := rest }) (l := l) hl hb hr]; rfl

/-- An OKAY write does what its location does. -/
theorem step_write_okay {s : State} {rest : List Event} {a : Word} {n : BusSize} {v : Word} {l : Loc}
   (h : s.inbox = .hostWrite a n v :: rest) (hl : locate s.params a n = some l) :
   step s = .next ((State.writeLoc { s with inbox := rest } n v l).answerWrite .okay) := by
  rw [step_hostWrite h, memWrite_okay (s := { s with inbox := rest }) (l := l) v hl]

/-- No HOST transaction ends a command in progress. -/
theorem step_host_busy {s t : State} {e : Event} {rest : List Event} (h : s.inbox = e :: rest) (he : isHostEvent e = true) (hs : step s = .next t) (hb : s.busy = true) : t.busy = true := by
  cases e with
  | hostRead a n =>
    rw [step_hostRead h] at hs
    injection hs with hs
    rw [← hs, memRead_frame]; exact hb
  | hostWrite a n v =>
    cases hl : locate s.params a n with
    | none =>
      rw [step_hostWrite h, memWrite_error (s := { s with inbox := rest }) v hl] at hs
      injection hs with hs
      rw [← hs]; exact hb
    | some l =>
      rw [step_write_okay h hl, writeLoc_busy _ _ _ _ (by exact hb)] at hs
      injection hs with hs
      rw [← hs]; exact hb
  | engineStep => cases he
  | resetInput => cases he

/-- All that a BUILD_TREE with ERR = 0 did. -/
theorem exec_buildTree_success {s t : State} (h : exec .buildTree s = .next t) (he : t.err = 0) : TableValid s ∧ t = (builtState s).succeed := by
  obtain ⟨u, hu, rfl⟩ := finish_success (s := s) (r := buildTree s) h he
  rcases buildTree_cases s with ⟨e, _, h'⟩ | ⟨hv, h'⟩
  · simp [h'] at hu
  · simp only [h', Except.ok.injEq] at hu
    exact ⟨hv, by rw [← hu]⟩

/-- All that a BUILD_CODES with ERR = 0 did. -/
theorem exec_buildCodes_success {s t : State} (h : exec .buildCodes s = .next t) (he : t.err = 0) : ∃ codes,
    s.treeValid = true ∧ s.nodeCount ≠ 0 ∧ assignCodes s (s.nodeCount.toNat - 1) = .ok codes ∧ t = (codedState s codes).succeed := by
  obtain ⟨u, hu, rfl⟩ := finish_success (s := s) (r := buildCodes s) h he
  rcases buildCodes_cases s with ⟨-, h'⟩ | ⟨-, -, h'⟩ | ⟨e, -, -, -, h'⟩ | ⟨codes, hv, hn, hc, h'⟩
  · simp [h', raise] at hu
  · simp [h'] at hu
  · simp [h'] at hu
  · simp only [h', Except.ok.injEq] at hu
    exact ⟨codes, hv, hn, hc, by rw [← hu]⟩

/-- All that an ENCODE with ERR = 0 did. -/
theorem exec_encode_success {s t : State} (h : exec .encode s = .next t) (he : t.err = 0) : EncodeReady s ∧
    byteCount (specStream s).length ≤ s.params.outCapBytes ∧ t = (encodedState s).succeed := by
  obtain ⟨u, hu, rfl⟩ := finish_success (s := s) (r := encodeSource s) h he
  rcases encodeSource_cases s with ⟨-, h'⟩ | ⟨-, -, h'⟩ | ⟨e, -, -, -, h'⟩ | ⟨-, -, h'⟩ | ⟨hr, hf, h'⟩
  · simp [h', raise] at hu
  · simp [h', raise] at hu
  · simp [h'] at hu
  · simp [h', raise] at hu
  · simp only [h', Except.ok.injEq] at hu
    exact ⟨hr, hf, by rw [← hu]⟩

/-- BUILD_CODES without a tree (42_code_assigner.md R103). -/
theorem exec_buildCodes_no_tree {s : State} (h : s.treeValid = false) : exec .buildCodes s = .next { s with err := 6, errInfo := 1, errIndex := 0, busy := false, done := true } := by
  rw [exec_eq_finish]
  simp only
  rcases buildCodes_cases s with ⟨-, h'⟩ | ⟨h', -, -⟩ | ⟨e, h', -, -, -⟩ | ⟨codes, h', -⟩
  · rw [h']; rfl
  all_goals simp [h] at h'

/-- ENCODE without codes (43_bitstream_encoder.md R113). -/
theorem exec_encode_no_codes {s : State} (h : s.codesValid = false) : exec .encode s = .next { s with err := 6, errInfo := 2, errIndex := 0, busy := false, done := true } := by
  rw [exec_eq_finish]
  simp only
  rcases encodeSource_cases s with ⟨-, h'⟩ | ⟨h', -, -⟩ | ⟨e, h', -, -, -⟩ | ⟨h', -, -⟩ | ⟨h', -, -⟩
  · rw [h']; rfl
  · simp [h] at h'
  · simp [h] at h'
  · exact absurd h'.1 (by simp [h])
  · exact absurd h'.1 (by simp [h])

/-- BUILD_TREE on a valid table. -/
theorem exec_buildTree_valid {s : State} (h : TableValid s) : exec .buildTree s = .next (builtState s).succeed := by
  rw [exec_eq_finish]; simp only [buildTree_valid h, finish_ok]

/-- BUILD_TREE on a table its validation refuses. -/
theorem exec_buildTree_error {s : State} {e : CmdError} (h : validateTable s s.ftabLen.toNat = .error (.raised e)) :
    exec .buildTree s = .next (s.fail e) := by
  rw [exec_eq_finish]; simp only [buildTree, h, finish_raised]

/-- BUILD_CODES where the traversal ends. -/
theorem exec_buildCodes_ok {s : State} {codes : CodeList} (hv : s.treeValid = true) (hn : s.nodeCount ≠ 0)
   (h : assignCodes s (s.nodeCount.toNat - 1) = .ok codes) : exec .buildCodes s = .next (codedState s codes).succeed := by
  rw [exec_eq_finish]; simp only
  rcases buildCodes_cases s with ⟨h', -⟩ | ⟨-, h', -⟩ | ⟨e, -, -, h', -⟩ | ⟨codes', -, -, h', hb⟩
  · simp [hv] at h'
  · exact absurd h' hn
  · simp [h] at h'
  · rw [h] at h'; cases h'; rw [hb]; rfl

/-- BUILD_CODES where the traversal raises an error. -/
theorem exec_buildCodes_error {s : State} {e : CmdError} (hv : s.treeValid = true) (hn : s.nodeCount ≠ 0)
   (h : assignCodes s (s.nodeCount.toNat - 1) = .error (.raised e)) : exec .buildCodes s = .next (s.fail e) := by
  rw [exec_eq_finish]; simp only
  rcases buildCodes_cases s with ⟨h', -⟩ | ⟨-, h', -⟩ | ⟨e', -, -, h', hb⟩ | ⟨codes', -, -, h', hb⟩
  · simp [hv] at h'
  · exact absurd h' hn
  · rw [h] at h'; cases h'; rw [hb]; rfl
  · simp [h] at h'

/-- ENCODE where the stream fits. -/
theorem exec_encode_ready {s : State} (h : EncodeReady s) (hf : byteCount (specStream s).length ≤ s.params.outCapBytes) :
    exec .encode s = .next (encodedState s).succeed := by
  rw [exec_eq_finish]; simp only [encodeSource_ready h, if_neg (show ¬ byteCount (specStream s).length > s.params.outCapBytes by omega), finish_ok]

/-- A write keeps every array in its canonical form and within its size. -/
theorem writeLoc_tablesOk {s : State} (hi : TablesOk s) {a : Word} {n : BusSize} {v : Word} {l : Loc} (hl : locate s.params a n = some l) :
   TablesOk (s.writeLoc n v l) := by
  obtain ⟨h1, h2, h3, h4, h5, h6⟩ := hi
  cases l with
  | reg r => cases r <;> simp only [State.writeLoc, State.writeReg, State.storeUnlessBusy, State.issue] <;> first | exact ⟨h1, h2, h3, h4, h5, h6⟩ | (split <;> exact ⟨h1, h2, h3, h4, h5, h6⟩)
  | ftabSymWord i =>
    simp only [State.writeLoc, State.storeUnlessBusy]
    split
    · exact ⟨h1, h2, h3, h4, h5, h6⟩
    · exact ⟨⟨Table.write_wf h1.1 _ _, Table.write_below h1.2 (ftabWord_of_locate (.inl hl)) _⟩, h2, h3, h4, h5, h6⟩
  | ftabCntWord i =>
    simp only [State.writeLoc, State.storeUnlessBusy]
    split
    · exact ⟨h1, h2, h3, h4, h5, h6⟩
    · exact ⟨h1, ⟨Table.write_wf h2.1 _ _, Table.write_below h2.2 (ftabWord_of_locate (.inr hl)) _⟩, h3, h4, h5, h6⟩
  | srcByte i =>
    simp only [State.writeLoc, State.storeUnlessBusy]
    split
    · exact ⟨h1, h2, h3, h4, h5, h6⟩
    · exact ⟨h1, h2, h3, h4, ⟨Memory.storeBytes_wf _ h5.1 _ _, Memory.storeBytes_below _ h5.2 (srcByte_of_locate hl) _⟩, h6⟩
  | nodeWord i k => exact ⟨h1, h2, h3, h4, h5, h6⟩
  | ctabWord c k => exact ⟨h1, h2, h3, h4, h5, h6⟩
  | outByte j => exact ⟨h1, h2, h3, h4, h5, h6⟩

/-- A command keeps every array in its canonical form and within its size. -/
theorem succeeds_tablesOk {s u : State} (h : TablesOk s) (hs : Succeeds s u) : TablesOk u := by
  obtain ⟨h1, h2, h3, h4, h5, h6⟩ := h
  cases hs with
  | tree _ => exact ⟨h1, h2, ⟨Table.writeSpan_wf h3.1 _, Table.writeSpan_below h3.2 (by simp [nodeImage_length])⟩, h4, h5, h6⟩
  | codes c _ _ _ => exact ⟨h1, h2, h3, ⟨Table.writeSpan_wf h4.1 _, Table.writeSpan_below h4.2 (by simp [ctabImage_length])⟩, h5, h6⟩
  | stream _ hf => exact ⟨h1, h2, h3, h4, h5, ⟨Table.writeSpan_wf h6.1 _, Table.writeSpan_below h6.2 (by rw [packBytes_length]; exact hf)⟩⟩

/-- The invariant says nothing of the inbox. -/
theorem inv_inbox {s : State} (hi : Inv s) (l : List Event) : Inv { s with inbox := l } :=
  ⟨hi.params, hi.tables, hi.error, hi.flags, hi.tree, hi.codes, hi.out⟩

end Sys2Proof.Machine
end

