-- ==== Sys2Proof/Tests/Slice0.lean ====
section
/-! SUPPORT. Tests of the model against the vectors of 95_test_vectors.md, the smoke test of WellFormed, and one witness for
the hypotheses of each obligation. -/

namespace Sys2Proof.Tests

open Sys2Proof.Machine Sys2Proof.Safety

/-! ### Helpers -/

/-- The answer is a next state that passes a check. -/
def isNext (o : Host.Outcome State Fault Refusal) (check : State → Bool) : Bool :=
  match o with
  | .next t => check t
  | .fault _ => false
  | .refused _ => false

theorem isNext_elim {o : Host.Outcome State Fault Refusal} {check : State → Bool} (h : isNext o check = true) :
    ∃ t, o = .next t ∧ check t = true := by
  cases o with
  | next t => exact ⟨t, rfl, h⟩
  | fault f => cases h
  | refused r => cases h

/-- The block after reset with events waiting. -/
def withEvents (es : List Event) : State := { State.reset with inbox := es }

/-- The block after reset with a command word accepted and events waiting. -/
def busyWith (w : Word) (es : List Event) : State := { State.reset with busy := true, cmdLatch := w, inbox := es }

/-- The block with a frequency table written. -/
def tableState (es : List (Byte × BitVec 32)) : State :=
  { State.reset with
    ftabLen := BitVec.ofNat 9 es.length
    ftabSym := Table.number 0 (es.map (·.1))
    ftabCnt := Table.number 0 (es.map (·.2)) }

/-- The code table of 42_code_assigner.md R111. -/
def exampleCodes : CodeList :=
  [(65, [true]), (66, [false, false]), (67, [false, true, false]), (68, [false, true, true])]

/-- The block with a code table and source bytes. -/
def codeState (codes : CodeList) (src : List Byte) : State :=
  { State.reset with
    codesValid := true
    ctab := Table.number 0 (ctabImage codes)
    srcLen := BitVec.ofNat 32 src.length
    src := Table.number 0 src }

/-- The tree of V-BC-5: two leaves of count 1. -/
def twoTree : HTree := .node (.leaf 5 1) (.leaf 6 1)

/-- The block with the tree of V-BC-5 in NODE. -/
def treeState : State :=
  { State.reset with
    treeValid := true
    nodeCount := 3
    rootCntLo := 2
    node := [(0, { zeroNode with cnt := 1, hs := true, sym := 5 }), (1, { zeroNode with cnt := 1, hs := true, sym := 6 }),
      (2, { zeroNode with cnt := 2, lp := true, left := 0, rp := true, right := 1 })] }

/-- The codes of V-BC-5. -/
def twoCodes : CodeList := [(6, [true]), (5, [false])]

/-! ### WellFormed -/

theorem test_params_reference : paramsWellFormed Config.reference := by decide
theorem test_params_bounds : paramsWellFormed ⟨4, 8⟩ ∧ paramsWellFormed ⟨2 ^ 24, 2 ^ 24⟩ := by decide
theorem test_params_source_too_small : ¬ paramsWellFormed ⟨0, 8⟩ := by decide
theorem test_params_source_too_large : ¬ paramsWellFormed ⟨2 ^ 24 + 4, 8⟩ := by decide
theorem test_params_source_not_multiple : ¬ paramsWellFormed ⟨5, 8⟩ := by decide
theorem test_params_output_too_small : ¬ paramsWellFormed ⟨4, 4⟩ := by decide
theorem test_params_output_too_large : ¬ paramsWellFormed ⟨4, 2 ^ 24 + 4⟩ := by decide
theorem test_params_output_not_multiple : ¬ paramsWellFormed ⟨4, 10⟩ := by decide
theorem test_command_mbz_set : cmdWellFormed 0x00000011 = false := by decide
theorem test_command_op_zero : cmdWellFormed 0x00000000 = false := by decide
theorem test_command_op_four : cmdWellFormed 0x00000004 = false := by decide
theorem test_command_well_formed : cmdWellFormed 1 ∧ cmdWellFormed 2 ∧ cmdWellFormed 3 := by decide

/-! ### Decoding: words written out from 30_encoding.md R67, V-CP-1 to V-CP-4 -/

theorem test_decode_build_tree : decode 0b00000000000000000000000000000001 = .ok .buildTree := by decide
theorem test_decode_build_codes : decode 0b00000000000000000000000000000010 = .ok .buildCodes := by decide
theorem test_decode_encode : decode 0b00000000000000000000000000000011 = .ok .encode := by decide
theorem test_decode_refuses_op : decode 0x00000000 = .error .noSuchOp ∧ decode 0x00000004 = .error .noSuchOp := by decide
theorem test_decode_refuses_mbz : decode 0x00000011 = .error .mbzNotZero ∧ decode 0xFFFFFFFF = .error .mbzNotZero := by
  decide
theorem test_encode : encode .buildTree = 1 ∧ encode .buildCodes = 2 ∧ encode .encode = 3 := by decide
theorem test_decodeTableWord : decodeTableWord 32 3 = some .encode ∧ decodeTableWord 32 0 = none := by decide

/-- The word placed by withFetchWord runs as the first step after reset: V-BC-E1. -/
theorem test_withFetchWord :
    isNext (step (State.reset.withFetchWord 32 2)) (fun t => t.err == 6 && t.errInfo == 1) = true := by decide +kernel

/-! ### BUILD_TREE -/

/-- V-BT-1. -/
theorem test_build_tree_example :
    isNext (exec .buildTree (tableState [(65, 5), (66, 2), (67, 1), (68, 1)])) (fun t =>
      (List.range 8).map (fun i => (nodeWordOf (t.nodeAt i) 0, nodeWordOf (t.nodeAt i) 2, nodeWordOf (t.nodeAt i) 3)) ==
        [(5, 0, 0x80000041), (2, 0, 0x80000042), (1, 0, 0x80000043), (1, 0, 0x80000044), (2, 0xC0030002, 0),
          (4, 0xC0040001, 0), (9, 0xC0000005, 0), (0, 0, 0)] &&
      t.nodeCount == 7 && t.rootCntLo == 9 && t.statusWord == 0x0A) = true := by decide +kernel

/-- V-BT-E7: at one index the zero count is found before the repeated symbol. -/
theorem test_build_tree_zero_count_first :
    isNext (exec .buildTree (tableState [(65, 1), (65, 0)])) (fun t =>
      t.err == 1 && t.errInfo == 3 && t.errIndex == 1 && t.treeValid == false) = true := by decide +kernel

/-! ### BUILD_CODES -/

/-- V-BC-5 and V-BC-1's STATUS: the left leaf gets "0", the right one "1". -/
theorem test_build_codes_two_leaves :
    isNext (exec .buildCodes treeState) (fun t =>
      ctabWordOf (t.ctabAt 5) 0 == 0x80000001 && ctabWordOf (t.ctabAt 5) 1 == 0 &&
      ctabWordOf (t.ctabAt 6) 0 == 0x80000001 && ctabWordOf (t.ctabAt 6) 1 == 0x80000000 &&
      ctabWordOf (t.ctabAt 7) 0 == 0 && t.statusWord == 0x12) = true := by decide +kernel

/-- The words of 42_code_assigner.md R111: "010" is 0x8000_0003, 0x4000_0000. -/
theorem test_code_words : ctabWordOf (validEntry [false, true, false]) 0 = 0x80000003 ∧
    ctabWordOf (validEntry [false, true, false]) 1 = 0x40000000 ∧ ctabWordOf (validEntry [false, true, false]) 9 = 0 := by
  decide +kernel

/-! ### ENCODE -/

/-- V-EN-1. -/
theorem test_encode_example :
    isNext (exec .encode (codeState exampleCodes [0x41, 0x42, 0x41, 0x43, 0x44])) (fun t =>
      (List.range 13).map t.outAt ==
        [0x00, 0x49, 0x01, 0x41, 0x81, 0x21, 0x00, 0x68, 0x68, 0x0D, 0x11, 0xCA, 0x60] &&
      t.hdrBitLen == 73 && t.outBitLen == 99 && t.outValid) = true := by decide +kernel

/-- V-EN-11: the first unknown byte is reported. -/
theorem test_encode_unknown_symbol :
    isNext (exec .encode (codeState exampleCodes [0x41, 0x45, 0x42, 0x46])) (fun t =>
      t.err == 4 && t.errInfo == 0x45 && t.errIndex == 1 && t.out == []) = true := by decide +kernel

/-! ### The bus -/

/-- V-BUS-1 to V-BUS-5, V-BUS-8, V-BUS-14: the answers to single reads. -/
theorem test_bus_reads :
    ([(0x000, BusSize.b4), (0x004, .b4), (0x000, .b2), (0x002, .b4), (0x040, .b4), (0x3FF0, .b4), (0x01010000, .b1)].map
      fun x => (State.memRead State.reset x.1 x.2).answer) =
    [some (.readAnswer .okay 0x48554646), some (.readAnswer .okay 0x10000), some (.readAnswer .error 0),
      some (.readAnswer .error 0), some (.readAnswer .error 0), some (.readAnswer .error 0),
      some (.readAnswer .error 0)] := by decide +kernel

/-- V-BUS-11, V-BUS-12: a word stored little-endian, read back by byte and half-word. -/
theorem test_bus_source_bytes :
    let s := State.memWrite State.reset 0x01000000 .b4 0x44434241
    (State.memRead s 0x01000002 .b1).answer = some (.readAnswer .okay 0x43) ∧
    (State.memRead s 0x01000002 .b2).answer = some (.readAnswer .okay 0x4443) := by decide +kernel

/-- V-BUS-17, V-CP-8: a write dropped while BUSY, and write-one-to-clear. -/
theorem test_bus_dropped_and_cleared :
    (State.memWrite (busyWith 1 []) 0x1000 .b4 0x41).ovr = true ∧
    (State.memWrite { State.reset with done := true } 0x014 .b4 1).done = true ∧
    (State.memWrite { State.reset with done := true } 0x014 .b4 2).done = false := by decide +kernel

/-! ### Witnesses: one-step states -/

/-- Every event can be the next one, of an idle and of a busy block with the reference parameters. -/
theorem test_witness_events :
    (∀ e, (withEvents [e]).inbox = e :: [] ∧ (withEvents [e]).busy = false ∧ (withEvents [e]).params = Config.reference) ∧
    ∀ w e, (busyWith w [e]).inbox = e :: [] ∧ (busyWith w [e]).busy = true ∧ (busyWith w [e]).params = Config.reference :=
  ⟨fun _ => ⟨rfl, rfl, rfl⟩, fun _ _ => ⟨rfl, rfl, rfl⟩⟩

theorem test_witness_DecodeAndEncodeAgree : decode 2 = .ok .buildCodes := by decide

theorem test_witness_CommandIssueLatchesTheWord :
    (withEvents [.hostWrite 0x010 .b4 1]).inbox = .hostWrite 0x010 .b4 1 :: [] ∧
    (withEvents [.hostWrite 0x010 .b4 1]).busy = false ∧
    (busyWith 3 [.hostWrite 0x010 .b4 1]).inbox = .hostWrite 0x010 .b4 1 :: [] ∧
    (busyWith 3 [.hostWrite 0x010 .b4 1]).busy = true := by decide

theorem test_witness_StepRunsTheDecodedCommand :
    (busyWith 3 []).busy = true ∧ decode (busyWith 3 []).cmdLatch = .ok .encode ∧ (busyWith 3 []).inbox = [] ∧
    (busyWith 3 [.engineStep]).busy = true ∧ decode (busyWith 3 [.engineStep]).cmdLatch = .ok .encode ∧
    (busyWith 3 [.engineStep]).inbox = .engineStep :: [] := by decide

theorem test_witness_IdleBlockStaysAsItIs :
    (withEvents []).busy = false ∧ (withEvents []).inbox = [] ∧ (withEvents [.engineStep]).busy = false ∧
    (withEvents [.engineStep]).inbox = .engineStep :: [] := by decide

/-- One illegal word for each of the three grounds, at the values next to the legal ones, in both phases. -/
theorem test_witness_IllegalWordCompletesWithIllegalCommand :
    (0x00000000 : Word).extractLsb' 0 4 = 0 ∧ 4 ≤ ((0x00000004 : Word).extractLsb' 0 4).toNat ∧
    (0x00000011 : Word).extractLsb' 4 28 ≠ 0 ∧
    (withEvents [.hostWrite 0x010 .b4 0x11]).busy = false ∧
    (withEvents [.hostWrite 0x010 .b4 0x11]).inbox = .hostWrite 0x010 .b4 0x11 :: [] ∧
    (busyWith 0x11 [.engineStep]).busy = true ∧ (busyWith 0x11 [.engineStep]).cmdLatch = 0x11 ∧
    (busyWith 0x11 [.engineStep]).inbox = .engineStep :: [] := by decide

theorem test_witness_CompletionWritesErrorRegisters :
    ∃ t, engineComplete (busyWith 2 []) = .next t ∧ (t.err == 6) = true := isNext_elim (by decide +kernel)

theorem test_witness_FailedCommandChangesOnlyErrorRegisters :
    ∃ t, engineComplete (busyWith 0x11 []) = .next t ∧ (t.err != 0) = true := isNext_elim (by decide +kernel)

theorem test_witness_success :
    (∃ t, exec .buildTree (tableState [(65, 10)]) = .next t ∧ (t.err == 0) = true) ∧
    (∃ t, exec .buildCodes treeState = .next t ∧ (t.err == 0) = true) ∧
    (∃ t, exec .encode (codeState twoCodes [6]) = .next t ∧ (t.err == 0) = true) :=
  ⟨isNext_elim (by decide +kernel), isNext_elim (by decide +kernel), isNext_elim (by decide +kernel)⟩

theorem test_witness_ValidityFlagLifecycle :
    (∃ t, step (withEvents [.resetInput]) = .next t ∧ (t.busy == false) = true) ∧
    (withEvents [.resetInput]).inbox = .resetInput :: [] ∧
    State.reset.treeValid = false ∧ State.reset.codesValid = false :=
  ⟨isNext_elim (by decide +kernel), rfl, rfl, rfl⟩

theorem test_witness_CommandFrames :
    (∃ t, exec .buildTree State.reset = .next t ∧ (t.err == 1) = true) ∧
    (∃ t, exec .buildCodes State.reset = .next t ∧ (t.err == 6) = true) ∧
    (∃ t, exec .encode (codeState twoCodes [6]) = .next t ∧ (t.outBitLen == 51) = true) ∧
    byteCount (streamBits (codeState twoCodes [6])).length ≤ 7 :=
  ⟨isNext_elim (by decide +kernel), isNext_elim (by decide +kernel), isNext_elim (by decide +kernel), by decide +kernel⟩

/-! ### Witnesses: the bus -/

/-- Accepted and refused accesses on both sides of each edge of the map. -/
theorem test_witness_BusErrorExactlyForUnacceptedAccess :
    ((withEvents [.hostRead 0x3FEC .b4]).inbox = .hostRead 0x3FEC .b4 :: [] ∧
      (withEvents [.hostWrite 0x3FF0 .b4 1]).inbox = .hostWrite 0x3FF0 .b4 1 :: []) ∧
    (∀ x ∈ [(0x03C, 4), (0x17FC, 4), (0x3FEC, 4), (0x7FFC, 4), (0x0100FFFF, 1), (0x021FFFFC, 4)],
      busAccepts Config.reference x.1 x.2) ∧
    ∀ x ∈ [(0x040, 4), (0x1800, 4), (0x3FF0, 4), (0x8000, 4), (0x01010000, 1), (0x02200000, 4), (0x002, 4), (0x000, 2),
      (0x01000001, 2)], ¬ busAccepts Config.reference x.1 x.2 :=
  ⟨⟨rfl, rfl⟩, by decide, by decide⟩

theorem test_witness_ReadsHaveNoSideEffect :
    (withEvents [.hostRead 0x014 .b4]).inbox = .hostRead 0x014 .b4 :: [] ∧ (withEvents [.hostRead 0x014 .b4]).busy = false := by
  decide

/-- The first and last of each list of registers. -/
theorem test_witness_RegistersReadTheirValues :
    (withEvents [.hostRead 0x000 .b4]).inbox = .hostRead 0x000 .b4 :: [] ∧
    ((0x000 : Word), (0x48554646 : Word)) ∈ openRegisters (withEvents [.hostRead 0x000 .b4]) ∧
    ((0x028 : Word), (0 : Word)) ∈ openRegisters (withEvents [.hostRead 0x028 .b4]) ∧
    (withEvents [.hostRead 0x02C .b4]).busy = false ∧
    ((0x02C : Word), (0 : Word)) ∈ resultRegisters (withEvents [.hostRead 0x02C .b4]) ∧
    ((0x03C : Word), (0 : Word)) ∈ resultRegisters (withEvents [.hostRead 0x03C .b4]) := by decide

/-- A busy read of each kind of location, at the ends of its range. -/
theorem test_witness_BusyReadsOfResultsAreDraws :
    (busyWith 1 [.hostRead 0x02C .b4]).busy = true ∧
    (busyWith 1 [.hostRead 0x02C .b4]).inbox = .hostRead 0x02C .b4 :: [] ∧
    (∀ x ∈ [(0x02C, 4), (0x03C, 4), (0x2000, 4), (0x7FFC, 4), (0x02000000, 1), (0x028, 4), (0x1000, 4), (0x17F8, 4),
      (0x17FC, 4), (0x0100FFFF, 1)], busAccepts Config.reference x.1 x.2) ∧
    paramsWellFormed (busyWith 1 []).params ∧
    ((0x028 : Word), (0 : Word)) ∈ openRegisters (busyWith 1 [.hostRead 0x028 .b4]) ∧
    (0x1000 : Word).toNat = 0x1000 + 8 * 0 ∧ (0x17F8 : Word).toNat = 0x1000 + 8 * 255 ∧
    (0x17FC : Word).toNat = 0x1004 + 8 * 255 ∧ (0x0100FFFF : Word).toNat = 0x01000000 + 65535 :=
  ⟨rfl, rfl, by decide, by decide, by decide, rfl, rfl, rfl, rfl⟩

/-- The last bytes of SRC and OUT. -/
theorem test_witness_ByteWindowsReadLittleEndian :
    paramsWellFormed (withEvents [.hostRead 0x0100FFFC .b4]).params ∧
    (withEvents [.hostRead 0x0100FFFC .b4]).inbox = .hostRead 0x0100FFFC .b4 :: [] ∧
    (0x0100FFFC : Word).toNat % sizeBytes .b4 = 0 ∧ (0x0100FFFC : Word).toNat = 0x01000000 + 65532 ∧
    65532 + sizeBytes .b4 ≤ (withEvents []).params.maxSrcLen ∧
    (0x021FFFFF : Word).toNat % sizeBytes .b1 = 0 ∧ (0x021FFFFF : Word).toNat = 0x02000000 + 2097151 ∧
    2097151 + sizeBytes .b1 ≤ (withEvents []).params.outCapBytes ∧ (withEvents []).busy = false := by decide

theorem test_witness_SourceWritesStoreTheirBytes :
    paramsWellFormed (withEvents [.hostWrite 0x0100FFFE .b2 0xABCD]).params ∧
    (withEvents [.hostWrite 0x0100FFFE .b2 0xABCD]).busy = false ∧
    (withEvents [.hostWrite 0x0100FFFE .b2 0xABCD]).inbox = .hostWrite 0x0100FFFE .b2 0xABCD :: [] ∧
    (0x0100FFFE : Word).toNat % sizeBytes .b2 = 0 ∧ (0x0100FFFE : Word).toNat = 0x01000000 + 65534 ∧
    65534 + sizeBytes .b2 ≤ (withEvents []).params.maxSrcLen := by decide

theorem test_witness_FrequencyTableWindowLayout :
    (255 : Nat) < 256 ∧ (withEvents [.hostRead 0x17F8 .b4]).inbox = .hostRead 0x17F8 .b4 :: [] ∧
    (0x17F8 : Word).toNat = 0x1000 + 8 * 255 ∧
    (withEvents [.hostRead 0x17FC .b4]).inbox = .hostRead 0x17FC .b4 :: [] ∧
    (0x17FC : Word).toNat = 0x1000 + 8 * 255 + 4 ∧ (withEvents [.hostWrite 0x17F8 .b4 0x141]).busy = false ∧
    (withEvents [.hostWrite 0x17F8 .b4 0x141]).inbox = .hostWrite 0x17F8 .b4 0x141 :: [] ∧
    (withEvents [.hostWrite 0x17FC .b4 7]).inbox = .hostWrite 0x17FC .b4 7 :: [] := by decide

/-- The four words of the last NODE entry. -/
theorem test_witness_NodeWindowLayout :
    (510 : Nat) ≤ 510 ∧ (0x3FE0 : Word).toNat = 0x2000 + 16 * 510 + 4 * 0 ∧
    (0x3FE4 : Word).toNat = 0x2000 + 16 * 510 + 4 * 1 ∧ (0x3FE8 : Word).toNat = 0x2000 + 16 * 510 + 4 * 2 ∧
    (0x3FEC : Word).toNat = 0x2000 + 16 * 510 + 4 * 3 ∧ (withEvents [.hostRead 0x3FEC .b4]).busy = false ∧
    (withEvents [.hostRead 0x3FEC .b4]).inbox = .hostRead 0x3FEC .b4 :: [] ∧
    (withEvents [.hostWrite 0x3FEC .b4 1]).inbox = .hostWrite 0x3FEC .b4 1 :: [] := by decide

/-- The words of the last CTAB entry where the clauses meet: 0, 1, 8, 9 and 15. -/
theorem test_witness_CodeTableWindowLayout :
    (255 : Nat) ≤ 255 ∧ (0x7FC0 : Word).toNat = 0x4000 + 64 * 255 + 4 * 0 ∧
    (0x7FC4 : Word).toNat = 0x4000 + 64 * 255 + 4 * 1 ∧ (0x7FE0 : Word).toNat = 0x4000 + 64 * 255 + 4 * 8 ∧
    (0x7FE4 : Word).toNat = 0x4000 + 64 * 255 + 4 * 9 ∧ (0x7FFC : Word).toNat = 0x4000 + 64 * 255 + 4 * 15 ∧
    (withEvents [.hostRead 0x7FC0 .b4]).busy = false ∧
    (withEvents [.hostRead 0x7FC0 .b4]).inbox = .hostRead 0x7FC0 .b4 :: [] ∧
    (withEvents [.hostWrite 0x7FC0 .b4 1]).inbox = .hostWrite 0x7FC0 .b4 1 :: [] := by decide

theorem test_witness_RegisterWritesTakeEffect :
    (withEvents [.hostWrite 0x00C .b4 1]).inbox = .hostWrite 0x00C .b4 1 :: [] ∧
    (withEvents [.hostWrite 0x014 .b4 0x42]).inbox = .hostWrite 0x014 .b4 0x42 :: [] ∧
    (withEvents [.hostWrite 0x024 .b4 0x201]).inbox = .hostWrite 0x024 .b4 0x201 :: [] ∧
    (withEvents [.hostWrite 0x028 .b4 5]).inbox = .hostWrite 0x028 .b4 5 :: [] ∧ (withEvents []).busy = false := by decide

/-- The ends of each read-only range. -/
theorem test_witness_ReadOnlyWritesAreIgnored :
    paramsWellFormed (withEvents []).params ∧
    (withEvents [.hostWrite 0x008 .b4 1]).inbox = .hostWrite 0x008 .b4 1 :: [] ∧
    ∀ x ∈ [(0x000, 4), (0x008, 4), (0x018, 4), (0x020, 4), (0x02C, 4), (0x03C, 4), (0x2000, 4), (0x7FFC, 4),
      (0x02000000, 1)], busAccepts Config.reference x.1 x.2 :=
  ⟨by decide, rfl, by decide⟩

/-- One busy write for each clause, at the ends of the windows. -/
theorem test_witness_BusyWritesAreDropped :
    paramsWellFormed (busyWith 1 []).params ∧ (busyWith 1 [.hostWrite 0x17FC .b4 9]).busy = true ∧
    (busyWith 1 [.hostWrite 0x17FC .b4 9]).inbox = .hostWrite 0x17FC .b4 9 :: [] ∧
    ∀ x ∈ [(0x010, 4), (0x024, 4), (0x028, 4), (0x1000, 4), (0x17FC, 4), (0x01000000, 4), (0x0100FFFF, 1), (0x00C, 4),
      (0x014, 4), (0x018, 4), (0x2000, 4), (0x02000000, 2)], busAccepts Config.reference x.1 x.2 :=
  ⟨by decide, rfl, rfl, by decide⟩

theorem test_witness_HostNeverWritesResults :
    (busyWith 1 [.hostWrite 0x02C .b4 5]).inbox = .hostWrite 0x02C .b4 5 :: [] ∧
    isHostEvent (.hostWrite 0x02C .b4 5) = true ∧
    ∃ t, step (busyWith 1 [.hostWrite 0x02C .b4 5]) = .next t ∧ (t.ovr == false) = true :=
  ⟨rfl, rfl, isNext_elim (by decide +kernel)⟩

theorem test_witness_InterruptFollowsDoneAndEnable :
    (∃ t, step (withEvents [.resetInput]) = .next t ∧ (t.irq == false) = true) ∧
    (∃ t, engineComplete (busyWith 0 []) = .next t ∧ (t.irq == false) = true) ∧
    (2 : Word).getLsbD 1 = true ∧
    (∃ t, step (withEvents [.hostWrite 0x014 .b4 2]) = .next t ∧ (t.irq == false) = true) ∧
    (∃ t, step (withEvents [.hostWrite 0x010 .b4 3]) = .next t ∧ (t.busy == true) = true) ∧
    (1 : Word).getLsbD 0 = true ∧
    ∃ t, step { withEvents [.hostWrite 0x00C .b4 1] with done := true } = .next t ∧ (t.irq == true) = true :=
  ⟨isNext_elim (by decide +kernel), isNext_elim (by decide +kernel), rfl, isNext_elim (by decide +kernel),
    isNext_elim (by decide +kernel), rfl, isNext_elim (by decide +kernel)⟩

theorem test_witness_ResetInputAbandonsTheCommand :
    (busyWith 1 [.resetInput]).inbox = .resetInput :: [] ∧ (busyWith 1 [.resetInput]).busy = true := by decide

theorem test_witness_OutValidClearedOnlyByReset :
    ∃ t, step { withEvents [.engineStep] with outValid := true } = .next t ∧ (t.outValid == true) = true :=
  isNext_elim (by decide +kernel)

/-! ### Witnesses: BUILD_TREE -/

/-- A one-entry table, the least size, and the table of 41_tree_builder.md R101. -/
theorem test_witness_TableValid :
    TableValid (tableState [(65, 10)]) ∧ TableValid (tableState [(65, 5), (66, 2), (67, 1), (68, 1)]) :=
  ⟨(validateTable_ok_iff _).1 (by rfl), (validateTable_ok_iff _).1 (by rfl)⟩

/-- One table for each clause: empty, 257 entries, a zero count, a repeated symbol; each at the last index it can have
there. -/
theorem test_witness_BuildTreeValidatesInOrder :
    State.reset.ftabLen = 0 ∧ 256 < ({ State.reset with ftabLen := 257 } : State).ftabLen.toNat ∧
    (let s := tableState [(65, 5), (66, 0)]
     s.ftabLen.toNat ≤ 256 ∧ 1 < s.ftabLen.toNat ∧
      (∀ j, j < 1 → (s.ftabAt j).cnt ≠ 0 ∧ ∀ k, k < j → (s.ftabAt k).sym ≠ (s.ftabAt j).sym) ∧ (s.ftabAt 1).cnt = 0) ∧
    (let s := tableState [(65, 5), (65, 1)]
     s.ftabLen.toNat ≤ 256 ∧ 1 < s.ftabLen.toNat ∧
      (∀ j, j < 1 → (s.ftabAt j).cnt ≠ 0 ∧ ∀ k, k < j → (s.ftabAt k).sym ≠ (s.ftabAt j).sym) ∧ (s.ftabAt 1).cnt ≠ 0 ∧
      ∃ k, k < 1 ∧ (s.ftabAt k).sym = (s.ftabAt 1).sym) :=
  ⟨rfl, by decide, by decide +kernel, by decide +kernel⟩

/-! ### Witnesses: trees and codes -/

theorem test_witness_BuildCodesWithoutTreeIsSequenceError : State.reset.treeValid = false := rfl

theorem test_witness_LoneLeafGetsOneBitCodeword :
    let s : State := { State.reset with
      treeValid := true, nodeCount := 1, node := [(0, { zeroNode with cnt := 10, hs := true, sym := 65 })] }
    s.treeValid = true ∧ s.nodeCount = 1 ∧ (s.nodeAt 0).lp = false ∧ (s.nodeAt 0).rp = false ∧ (s.nodeAt 0).hs = true := by
  decide

/-- A root with one child, and a root with neither child nor symbol. -/
theorem test_witness_MalformedRootIsInvalidTree :
    (let s : State := { State.reset with treeValid := true, nodeCount := 511, node := [(510, { zeroNode with lp := true })] }
     s.treeValid = true ∧ s.nodeCount ≠ 0 ∧ (s.nodeAt (s.nodeCount.toNat - 1)).lp ≠ (s.nodeAt (s.nodeCount.toNat - 1)).rp) ∧
    (let s : State := { State.reset with treeValid := true, nodeCount := 1, node := [(0, zeroNode)] }
     s.treeValid = true ∧ s.nodeCount ≠ 0 ∧ (s.nodeAt (s.nodeCount.toNat - 1)).lp = false ∧
      (s.nodeAt (s.nodeCount.toNat - 1)).rp = false ∧ (s.nodeAt (s.nodeCount.toNat - 1)).hs = false) := by
  decide

theorem treeState_holds : BlockHoldsTree treeState twoTree := by
  refine ⟨by decide, ⟨0, 1, by decide, by decide, by decide, by decide, ⟨by decide, by decide⟩, ⟨by decide, by decide⟩⟩,
    by decide, by decide⟩

theorem test_witness_CodewordsAreThePathsFromTheRoot : treeState.treeValid = true ∧ BlockHoldsTree treeState twoTree :=
  ⟨rfl, treeState_holds⟩

theorem twoCodes_entries : ∀ c : Byte, entryFor twoCodes c.toNat = treeEntry twoTree c := by decide +kernel

/-- The code table of V-BC-2, of a lone leaf. -/
theorem oneCode_entries : ∀ c : Byte, entryFor [(65, [false])] c.toNat = treeEntry (.leaf 65 10) c := by decide +kernel

/-- Where CTAB is the image of the codes of a tree, the block holds the code table of that tree. -/
theorem holdsCodes_of_ctab {s : State} {codes : CodeList} {tr : HTree} (hn : (symbols tr).Nodup)
    (he : ∀ c : Byte, entryFor codes c.toNat = treeEntry tr c) (h : s.ctab = Table.number 0 (ctabImage codes)) :
    BlockHoldsCodes s tr := by
  refine ⟨hn, fun c => ?_⟩
  have hc : (ctabImage codes)[c.toNat]? = some (entryFor codes c.toNat) := by
    have : c.toNat < 256 := c.isLt
    simp [ctabImage, this]
  rw [State.ctabAt, h, Table.find_number, if_pos (Nat.zero_le _), Nat.sub_zero, hc, Option.getD_some, he]

/-- A block that holds the codes of a tree and some source bytes meets the invariant. -/
theorem codeState_inv {codes : CodeList} {tr : HTree} (hn : (symbols tr).Nodup)
    (he : ∀ c : Byte, entryFor codes c.toNat = treeEntry tr c) (p : Config.Params) (hp : paramsWellFormed p)
    (src : List Byte) (hs : src.length ≤ p.maxSrcLen) : Inv { codeState codes src with params := p } where
  params := hp
  tables := by
    refine ⟨⟨List.Pairwise.nil, ?_⟩, ⟨List.Pairwise.nil, ?_⟩, ⟨List.Pairwise.nil, ?_⟩, ⟨Table.number_wf 0 _, ?_⟩,
      ⟨Table.number_wf 0 _, ?_⟩, ⟨List.Pairwise.nil, ?_⟩⟩
    · intro c hc; cases hc
    · intro c hc; cases hc
    · intro c hc; cases hc
    · intro c hc
      have := Table.mem_number hc
      rw [ctabImage_length] at this
      omega
    · intro c hc
      have := Table.mem_number hc
      show c.1 < p.maxSrcLen
      omega
    · intro c hc; cases hc
  error := ⟨by simp [codeState, State.reset, State.resetWith], fun _ => ⟨rfl, rfl⟩⟩
  flags := fun h => by cases h.1
  tree := ⟨fun h => absurd rfl h, fun h => by cases h⟩
  codes := fun _ => ⟨tr, holdsCodes_of_ctab hn he rfl⟩
  out := fun h => by cases h

/-- A block that holds the tree of V-BC-5 meets the invariant. -/
theorem treeState_inv : Inv treeState where
  params := by decide
  tables := by
    refine ⟨⟨List.Pairwise.nil, ?_⟩, ⟨List.Pairwise.nil, ?_⟩, ⟨by decide, by decide⟩, ⟨List.Pairwise.nil, ?_⟩,
      ⟨List.Pairwise.nil, ?_⟩, ⟨List.Pairwise.nil, ?_⟩⟩ <;> (intro c hc; cases hc)
  error := ⟨by decide, fun _ => ⟨rfl, rfl⟩⟩
  flags := fun h => by cases h.2
  tree := ⟨fun _ => ⟨twoTree, treeState_holds⟩, fun _ => by decide⟩
  codes := fun h => by cases h
  out := fun h => by cases h

theorem test_witness_codes_valid :
    Inv (codeState twoCodes []) ∧ (codeState twoCodes []).codesValid = true ∧
    ((codeState twoCodes []).ctabAt (5 : Byte).toNat).valid = true ∧
    ((codeState twoCodes []).ctabAt (6 : Byte).toNat).valid = true :=
  ⟨codeState_inv (tr := twoTree) (by decide) twoCodes_entries Config.reference (by decide) [] (by decide), rfl,
    by decide +kernel, by decide +kernel⟩

/-! ### Witnesses: ENCODE -/

/-- One state for each check, the source length one past the capacity, the unknown byte at the last index. -/
theorem test_witness_EncodeChecksInOrder :
    State.reset.codesValid = false ∧
    (let s : State := { codeState twoCodes [] with srcLen := 65537 }
     s.codesValid = true ∧ s.params.maxSrcLen < s.srcLen.toNat) ∧
    (let s := codeState twoCodes [5, 7]
     s.codesValid = true ∧ s.srcLen.toNat ≤ s.params.maxSrcLen ∧ 1 < s.srcLen.toNat ∧
      (∀ j, j < 1 → (s.ctabAt (s.srcAt j).toNat).valid = true) ∧ (s.ctabAt (s.srcAt 1).toNat).valid = false) := by
  decide +kernel

/-- V-EN-8's state is ready, and its stream fits, with the reference parameters. -/
theorem test_witness_EncodeWritesThePackedStream :
    EncodeReady (codeState twoCodes [6]) ∧ Inv (codeState twoCodes [6]) ∧
    (codeState twoCodes [6]).params = Config.reference ∧ ((specStream (codeState twoCodes [6])).length + 7) / 8 ≤ (codeState twoCodes [6]).params.outCapBytes :=
  ⟨⟨rfl, by decide, by decide +kernel⟩, codeState_inv (tr := twoTree) (by decide) twoCodes_entries Config.reference
    (by decide) [6] (by decide), rfl, by decide +kernel⟩

/-- A stream of 65 bits does not fit 8 bytes: one bit more than fits. -/
theorem test_witness_OverflowingStreamWritesNothing :
    let s : State := { codeState twoCodes (List.replicate 15 5) with params := { maxSrcLen := 64, outCapBytes := 8 } }
    EncodeReady s ∧ Inv s ∧ s.params.outCapBytes < ((specStream s).length + 7) / 8 :=
  ⟨⟨rfl, by decide, by decide +kernel⟩, codeState_inv (tr := twoTree) (by decide) twoCodes_entries _ (by decide) _
    (by decide), by decide +kernel⟩

/-- A code table of one symbol, and one of two. -/
theorem test_witness_HeaderLengthFitsSixteenBits :
    (Inv (codeState [(65, [false])] []) ∧ (codeState [(65, [false])] []).codesValid = true ∧
      (codePairs (codeState [(65, [false])] [])).length = 1) ∧
    (Inv (codeState twoCodes []) ∧ (codeState twoCodes []).codesValid = true ∧
      2 ≤ (codePairs (codeState twoCodes [])).length) :=
  ⟨⟨codeState_inv (tr := .leaf 65 10) (by decide) oneCode_entries Config.reference (by decide) [] (by decide), rfl,
    by decide +kernel⟩, ⟨test_witness_codes_valid.1, rfl, by decide +kernel⟩⟩

/-! ### Witnesses: determinism, the invariant, progress -/

theorem test_witness_EncodeDependsOnItsOperandsOnly :
    let s₁ := codeState twoCodes [6]
    let s₂ : State := { codeState twoCodes [6] with ftabLen := 7, done := true }
    s₁.params = s₂.params ∧ s₁.codesValid = s₂.codesValid ∧ s₁.srcLen = s₂.srcLen ∧
    (∀ c, c < 256 → s₁.ctabAt c = s₂.ctabAt c) ∧ (∀ i, i < s₁.srcLen.toNat → s₁.srcAt i = s₂.srcAt i) ∧
    ∃ t, exec .encode s₁ = .next t ∧ (t.err == 0) = true :=
  ⟨rfl, rfl, rfl, fun _ _ => rfl, fun _ _ => rfl, isNext_elim (by decide +kernel)⟩

theorem test_witness_BuildersDependOnTheirOperandsOnly :
    (let s₁ := tableState [(65, 10)]
     let s₂ : State := { tableState [(65, 10)] with srcLen := 9, codesValid := true }
     s₁.ftabLen = s₂.ftabLen ∧ (∀ i, i < s₁.ftabLen.toNat → s₁.ftabAt i = s₂.ftabAt i) ∧
      ∃ t, exec .buildTree s₁ = .next t ∧ (t.err == 0) = true) ∧
    (let s₁ := treeState
     let s₂ : State := { treeState with srcLen := 9, outValid := true }
     s₁.treeValid = s₂.treeValid ∧ s₁.nodeCount = s₂.nodeCount ∧ (∀ i, i ≤ 510 → s₁.nodeAt i = s₂.nodeAt i) ∧
      ∃ t, exec .buildCodes s₁ = .next t ∧ (t.err == 0) = true) :=
  ⟨⟨rfl, fun _ _ => rfl, isNext_elim (by decide +kernel)⟩, ⟨rfl, rfl, fun _ _ => rfl, isNext_elim (by decide +kernel)⟩⟩

/-- A state with a tree and a command in progress meets the invariant and steps; so does one with HOST transactions
waiting. -/
theorem test_witness_StepKeepsTheInvariant :
    let s : State := { treeState with busy := true, cmdLatch := 2 }
    Inv s ∧ TablesOk s ∧ s.busy = true ∧ (∀ e ∈ s.inbox, isHostEvent e = true) ∧ s.err ≠ 2 ∧ s.err ≠ 3 ∧
      ∃ t, step s = .next t ∧ (t.codesValid == true) = true :=
  ⟨⟨treeState_inv.params, treeState_inv.tables, treeState_inv.error, treeState_inv.flags, treeState_inv.tree,
    treeState_inv.codes, treeState_inv.out⟩, treeState_inv.tables, rfl, by decide, by decide, by decide,
    isNext_elim (by decide +kernel)⟩

theorem test_witness_BusyCommandIsCompleted :
    let s : State := { treeState with busy := true, cmdLatch := 2, inbox := [.hostRead 0x014 .b4, .hostWrite 0x010 .b4 3] }
    Inv s ∧ s.busy = true ∧ ∀ e ∈ s.inbox, isHostEvent e = true :=
  ⟨⟨treeState_inv.params, treeState_inv.tables, treeState_inv.error, treeState_inv.flags, treeState_inv.tree,
    treeState_inv.codes, treeState_inv.out⟩, rfl, by decide⟩

end Sys2Proof.Tests
end

section
/-! PROOFS. The state family: what a HOST transaction can change, what the registers read and take, the interrupt, the
form of the tree BUILD_TREE writes, and the invariant of the block. -/

namespace Sys2Proof.Machine

open Sys2Proof.Safety

/-! ### What each part of a step leaves unchanged -/

/-- `t` differs from `s` at most in what HOST's transactions may change: the answer, the inputs of commands, the latch, CTRL
and the flags BUSY, DONE and OVR. -/
def HostFrame (s t : State) : Prop :=
  t = { s with
    answer := t.answer, draws := t.draws, ie := t.ie, busy := t.busy, done := t.done, ovr := t.ovr,
    ftabLen := t.ftabLen, srcLen := t.srcLen, cmdLatch := t.cmdLatch, ftabSym := t.ftabSym, ftabCnt := t.ftabCnt,
    src := t.src }

theorem hostFrame_memRead (s : State) (a : Word) (n : BusSize) : HostFrame s (s.memRead a n) := by
  unfold HostFrame
  rw [memRead_frame]

theorem hostFrame_memWrite (s : State) (a : Word) (n : BusSize) (v : Word) : HostFrame s (s.memWrite a n v) := by
  unfold HostFrame
  cases hl : locate s.params a n with
  | none => rw [memWrite_error v hl]; rfl
  | some l => rw [memWrite_okay v hl, writeLoc_frame]; rfl

theorem HostFrame.params {s t : State} (h : HostFrame s t) : t.params = s.params := by rw [h]

theorem HostFrame.outValid {s t : State} (h : HostFrame s t) : t.outValid = s.outValid := by rw [h]

theorem succeeds_params {s u : State} (h : Succeeds s u) : u.params = s.params := by cases h <;> rfl

/-- A command that succeeds sets OUT_VALID or leaves it (40_command_protocol.md R87). -/
theorem succeeds_outValid {s u : State} (h : Succeeds s u) (hv : s.outValid = true) : u.outValid = true := by
  cases h with
  | tree _ => exact hv
  | codes _ _ _ _ => exact hv
  | stream _ _ => rfl

/-- A completion keeps the parameters and never clears OUT_VALID. -/
theorem engineComplete_params_outValid {s t : State} (h : engineComplete s = .next t) :
    t.params = s.params ∧ (s.outValid = true → t.outValid = true) := by
  rcases engineComplete_cases h with ⟨u, hu, rfl⟩ | ⟨e, rfl⟩
  · exact ⟨(succeeds_params hu :), (succeeds_outValid hu :)⟩
  · exact ⟨rfl, id⟩

/-- Settles O24: a read and a write both stay within what `HostFrame` lets HOST change. -/
theorem hostNeverWritesResults : Obligations.HostNeverWritesResults := by
  intro s t e rest hi he hs
  cases e with
  | hostRead a n =>
    rw [step_hostRead hi] at hs
    injection hs with hs
    exact hs ▸ hostFrame_memRead _ a n
  | hostWrite a n v =>
    rw [step_hostWrite hi] at hs
    injection hs with hs
    exact hs ▸ hostFrame_memWrite _ a n v
  | engineStep => cases he
  | resetInput => cases he

/-- Settles O28, over all that a step can do. -/
theorem outValidClearedOnlyByReset : Obligations.OutValidClearedOnlyByReset := by
  intro s t hs
  rcases step_cases hs with ⟨a, n, rest, -, rfl⟩ | ⟨a, n, v, rest, -, rfl⟩ | ⟨rest, hi, rfl⟩ | ⟨rest, -, -, rfl⟩ |
    ⟨rest, -, -, hc⟩
  · have hf := hostFrame_memRead { s with inbox := rest } a n
    exact ⟨hf.params, fun hv => .inl (hf.outValid.trans hv)⟩
  · have hf := hostFrame_memWrite { s with inbox := rest } a n v
    exact ⟨hf.params, fun hv => .inl (hf.outValid.trans hv)⟩
  · exact ⟨rfl, fun _ => .inr ⟨rest, hi⟩⟩
  · exact ⟨rfl, .inl⟩
  · obtain ⟨hp, hv⟩ := engineComplete_params_outValid hc
    exact ⟨hp, fun h => .inl (hv h)⟩

/-! ### The arrays -/

theorem memRead_tablesOk {s : State} (h : TablesOk s) (a : Word) (n : BusSize) : TablesOk (s.memRead a n) := by
  rw [memRead_frame]
  exact h

theorem memWrite_tablesOk {s : State} (h : TablesOk s) (a : Word) (n : BusSize) (v : Word) :
    TablesOk (s.memWrite a n v) := by
  cases hl : locate s.params a n with
  | none => rw [memWrite_error v hl]; exact h
  | some l => rw [memWrite_okay v hl]; exact writeLoc_tablesOk h hl

/-- After a reset no cell is written, so every array is the empty list (70_reset_and_hazards.md R140). -/
theorem resetWith_tablesOk (p : Config.Params) (k : Nat) : TablesOk (State.resetWith p k) := by
  simp [TablesOk, State.resetWith]

theorem onReset_tablesOk (s : State) : TablesOk s.onReset := resetWith_tablesOk s.params (s.resets + 1)

theorem engineComplete_tablesOk {s t : State} (h : TablesOk s) (hc : engineComplete s = .next t) : TablesOk t := by
  rcases engineComplete_cases hc with ⟨u, hu, rfl⟩ | ⟨e, rfl⟩
  · exact (succeeds_tablesOk h hu :)
  · exact h

theorem step_tablesOk {s t : State} (h : TablesOk s) (hs : step s = .next t) : TablesOk t := by
  have hin : ∀ rest, TablesOk { s with inbox := rest } := fun _ => h
  rcases step_cases hs with ⟨a, n, rest, -, rfl⟩ | ⟨a, n, v, rest, -, rfl⟩ | ⟨rest, -, rfl⟩ | ⟨rest, -, -, rfl⟩ |
    ⟨rest, -, -, hc⟩
  · exact memRead_tablesOk (hin rest) a n
  · exact memWrite_tablesOk (hin rest) a n v
  · exact onReset_tablesOk _
  · exact hin rest
  · exact engineComplete_tablesOk (hin rest) hc

/-- Settles O49: the lists are empty at reset, and each write of a step is a law of `Table`. -/
theorem stepKeepsTheArraysCanonical : Obligations.StepKeepsTheArraysCanonical :=
  ⟨resetWith_tablesOk, fun _ _ => step_tablesOk⟩

/-! ### The invariant -/

/-- The invariant reads no field that HOST may change but the arrays it writes. -/
theorem inv_of_hostFrame {s t : State} (hi : Inv s) (ht : TablesOk t) (hf : HostFrame s t) : Inv t := by
  refine ⟨?_, ht, ?_, ?_, ?_, ?_, ?_⟩ <;> rw [hf]
  exacts [hi.params, hi.error, hi.flags, hi.tree, hi.codes, hi.out]

theorem onReset_inv {s : State} (hi : Inv s) : Inv s.onReset where
  params := hi.params
  tables := onReset_tablesOk s
  error := by simp [ErrorOk]
  flags := by simp [FlagsOk]
  tree := by simp [TreeOk]
  codes := by simp [CodesOk]
  out := by simp [OutOk]

/-- A failed command changes the error registers only, and leaves a code of 60_exceptions.md R125 in them. -/
theorem fail_inv {s : State} (hi : Inv s) (e : CmdError) : Inv (s.fail e) where
  params := hi.params
  tables := hi.tables
  error := ⟨errorCode_le_seven e.name, fun h => absurd h (fail_err_ne_zero s e)⟩
  flags := hi.flags
  tree := hi.tree
  codes := hi.codes
  out := hi.out

theorem succeed_errorOk (u : State) : ErrorOk u.succeed := by simp [ErrorOk]

theorem succeeds_flagsOk {s u : State} (h : FlagsOk s) (hs : Succeeds s u) : FlagsOk u := by
  cases hs with
  | tree _ => simp [FlagsOk, builtState]
  | codes _ _ _ _ => simp [FlagsOk, codedState]
  | stream _ _ => exact h

/-- NODE_COUNT after BUILD_TREE (41_tree_builder.md R97): a table has an entry, so it is not 0. -/
theorem builtState_nodeCount_ne_zero {s : State} (h : TableValid s) : (builtState s).nodeCount ≠ 0 := by
  obtain ⟨h₁, h₂, -, -⟩ := h
  have hc : (builtState s).nodeCount.toNat = 2 * s.ftabLen.toNat - 1 := toNat_ofNat_nine (by omega)
  intro h₀
  have h₀' : (builtState s).nodeCount.toNat = 0 := by rw [h₀]; rfl
  omega

theorem builtState_treeOk {s : State} (h : TableValid s) : TreeOk (builtState s) := by
  obtain ⟨t, ht, -⟩ := builtState_holds h
  exact ⟨fun _ => ⟨t, ht⟩, fun _ => builtState_nodeCount_ne_zero h⟩

theorem succeeds_treeOk {s u : State} (h : TreeOk s) (hs : Succeeds s u) : TreeOk u := by
  cases hs with
  | tree hv => exact builtState_treeOk hv
  | codes _ _ hn _ => exact ⟨fun _ => h.1 hn, fun hf => by cases hf⟩
  | stream _ _ => exact h

/-- BUILD_CODES turns a held tree into its code table (42_code_assigner.md R108). -/
theorem codedState_holdsCodes {s : State} {t : HTree} {codes : CodeList} (hv : s.treeValid = true)
    (hn : s.nodeCount ≠ 0) (hc : assignCodes s (s.nodeCount.toNat - 1) = .ok codes) (ht : BlockHoldsTree s t) :
    BlockHoldsCodes (codedState s codes) t := by
  obtain ⟨codes', hb, hentries⟩ := buildCodes_holds hv ht
  have hsame : (codedState s codes).succeed = (codedState s codes').succeed := by
    have h := exec_buildCodes_ok hv hn hc
    rw [exec_eq_finish] at h
    simp only [hb, finish_ok] at h
    injection h with h
    exact h.symm
  obtain ⟨-, -, hdistinct, -⟩ := ht
  refine ⟨hdistinct, fun c => ?_⟩
  rw [← hentries c, ← succeed_ctabAt, hsame, succeed_ctabAt]

theorem succeeds_codesOk {s u : State} (hi : Inv s) (hs : Succeeds s u) : CodesOk u := by
  cases hs with
  | tree _ => exact fun hf => by cases hf
  | codes codes hv hn hc =>
    obtain ⟨t, ht⟩ := hi.tree.1 hn
    exact fun _ => ⟨t, codedState_holdsCodes hv hn hc ht⟩
  | stream _ _ => exact hi.codes

/-- The header of a block that meets the invariant has at most 36991 bits (43_bitstream_encoder.md R116). -/
theorem specHeader_length_le_of_inv {s : State} (hi : Inv s) (hv : s.codesValid = true) :
    (specHeader s).length ≤ 36991 := by
  obtain ⟨t, ht⟩ := hi.codes hv
  exact specHeader_length_le ht

/-- The stream of a block that meets the invariant is shorter than 2^32 bits (43_bitstream_encoder.md R118). -/
theorem specStream_length_lt {s : State} (hi : Inv s) (hr : EncodeReady s) : (specStream s).length < 2 ^ 32 := by
  obtain ⟨hv, hlen, -⟩ := hr
  have hheader := specHeader_length_le_of_inv hi hv
  have hpayload := specPayload_length_le s
  have hcap : s.params.maxSrcLen ≤ 2 ^ 24 := hi.params.2.1
  have hstream := specStream_length s
  omega

theorem encodedState_outOk {s : State} (hi : Inv s) (hr : EncodeReady s)
    (hf : byteCount (specStream s).length ≤ s.params.outCapBytes) : OutOk (encodedState s) := by
  have hheader := specHeader_length_le_of_inv hi hr.1
  have hstream := specStream_length_lt hi hr
  have hlen := specStream_length s
  have hh : (encodedState s).hdrBitLen.toNat = (specHeader s).length := by
    simp only [encodedState, BitVec.toNat_ofNat]
    omega
  have ho : (encodedState s).outBitLen.toNat = (specStream s).length := by
    simp only [encodedState, BitVec.toNat_ofNat]
    omega
  intro _
  rw [hh, ho]
  exact ⟨by omega, hf⟩

theorem succeeds_outOk {s u : State} (hi : Inv s) (hs : Succeeds s u) : OutOk u := by
  cases hs with
  | tree _ => exact hi.out
  | codes _ _ _ _ => exact hi.out
  | stream hr hf => exact encodedState_outOk hi hr hf

theorem succeed_inv {s u : State} (hi : Inv s) (hs : Succeeds s u) : Inv u.succeed where
  params := (succeeds_params hs).symm ▸ hi.params
  tables := (succeeds_tablesOk hi.tables hs :)
  error := succeed_errorOk u
  flags := (succeeds_flagsOk hi.flags hs :)
  tree := (succeeds_treeOk hi.tree hs :)
  codes := (succeeds_codesOk hi hs :)
  out := (succeeds_outOk hi hs :)

theorem engineComplete_inv {s t : State} (hi : Inv s) (hc : engineComplete s = .next t) : Inv t := by
  rcases engineComplete_cases hc with ⟨u, hu, rfl⟩ | ⟨e, rfl⟩
  · exact succeed_inv hi hu
  · exact fail_inv hi e

/-- Settles O48: HOST's transactions leave what the invariant reads, but for the arrays, and each command keeps it, for
BUILD_TREE writes a tree and BUILD_CODES the code table of the tree it finds. -/
theorem stepKeepsTheInvariant : Obligations.StepKeepsTheInvariant := by
  intro s t hi hs
  have hin : ∀ rest, Inv { s with inbox := rest } := inv_inbox hi
  rcases step_cases hs with ⟨a, n, rest, -, rfl⟩ | ⟨a, n, v, rest, -, rfl⟩ | ⟨rest, -, rfl⟩ | ⟨rest, -, -, rfl⟩ |
    ⟨rest, -, -, hc⟩
  · exact inv_of_hostFrame (hin rest) (memRead_tablesOk (hin rest).tables a n) (hostFrame_memRead _ a n)
  · exact inv_of_hostFrame (hin rest) (memWrite_tablesOk (hin rest).tables a n v) (hostFrame_memWrite _ a n v)
  · exact onReset_inv (hin rest)
  · exact hin rest
  · exact engineComplete_inv (hin rest) hc

/-! ### The form of a built tree -/

/-- Node `j` is a child of node `i`. -/
def IsChild (nodes : Nat → Node) (i j : Nat) : Prop := (nodes i).left.toNat = j ∨ (nodes i).right.toNat = j

theorem inWork_iff_no_parent (f : Nat → Node) (n k j : Nat) :
    InWork f n k j ↔ j < n + k ∧ ∀ m, m < k → ¬ IsChild f (n + m) j := by
  simp only [InWork, IsChild, not_or, ne_eq]

/-- A merge takes its children from the working collection (41_tree_builder.md R95). -/
theorem mergedAt_child_inWork {f : Nat → Node} {n k j : Nat} (h : MergedAt f n k) (hj : IsChild f (n + k) j) :
    InWork f n k j := by
  obtain ⟨-, -, -, -, -, hl, hr, -, -⟩ := h
  rcases hj with rfl | rfl
  · exact hl
  · exact hr

theorem mergedAt_child_lt {f : Nat → Node} {n k j : Nat} (h : MergedAt f n k) (hj : IsChild f (n + k) j) : j < n + k :=
  (mergedAt_child_inWork h hj).1

theorem keyBelow_ne {f : Nat → Node} {i j : Nat} (h : KeyBelow f i j) : i ≠ j := by
  rintro rfl
  unfold KeyBelow at h
  omega

theorem mergedAt_children_ne {f : Nat → Node} {n k : Nat} (h : MergedAt f n k) :
    (f (n + k)).left ≠ (f (n + k)).right := by
  obtain ⟨-, -, -, -, -, -, -, hkey, -⟩ := h
  exact fun e => keyBelow_ne hkey (congrArg BitVec.toNat e)

/-- Two merges with a child in common are the same: the earlier one removed it from the working collection. -/
theorem mergedAt_parent_unique {f : Nat → Node} {n k m j : Nat} (hk : MergedAt f n k) (hm : MergedAt f n m)
    (hkj : IsChild f (n + k) j) (hmj : IsChild f (n + m) j) : k = m := by
  have hlater : ∀ {a b}, MergedAt f n b → IsChild f (n + a) j → IsChild f (n + b) j → ¬ a < b := fun hb ha hbj hab =>
    ((inWork_iff_no_parent f n _ j).1 (mergedAt_child_inWork hb hbj)).2 _ hab ha
  have h₁ := hlater hm hkj hmj
  have h₂ := hlater hk hmj hkj
  omega

/-- Where the root is all that the merges leave, every node below it has exactly one parent. -/
theorem existsUnique_parent {f : Nat → Node} {n : Nat} (hm : ∀ k, k < n - 1 → MergedAt f n k)
    (hroot : ∀ i, InWork f n (n - 1) i ↔ i = 2 * n - 2) {j : Nat} (hj : j < 2 * n - 2) :
    ∃! i, n ≤ i ∧ i < 2 * n - 1 ∧ IsChild f i j := by
  have hout : ¬ InWork f n (n - 1) j := fun h => by
    have := (hroot j).1 h
    omega
  obtain ⟨k, hk, hkj⟩ : ∃ k, k < n - 1 ∧ IsChild f (n + k) j := by
    by_contra hnone
    push Not at hnone
    exact hout ((inWork_iff_no_parent f n _ j).2 ⟨by omega, hnone⟩)
  refine ⟨n + k, ⟨by omega, by omega, hkj⟩, ?_⟩
  rintro i ⟨hni, hi, hij⟩
  obtain ⟨m, rfl⟩ := Nat.exists_eq_add_of_le hni
  rw [mergedAt_parent_unique (hm m (by omega)) (hm k hk) hij hkj]

/-- Settles O32: a merge takes its two children out of the working collection for good, and only the root stays in it. -/
theorem builtTreeHasExclusiveOwnership : Obligations.BuiltTreeHasExclusiveOwnership := by
  intro s hv
  obtain ⟨-, hleaf, hmerge, hroot, -⟩ := builtState_facts hv
  refine ⟨_, exec_buildTree_valid hv, ?_⟩
  rw [succeed_nodeAt]
  generalize (builtState s).nodeAt = f at *
  generalize s.ftabLen.toNat = n at *
  have hat : ∀ i, n ≤ i → i < 2 * n - 1 → ∃ k, i = n + k ∧ MergedAt f n k := fun i hni hi => by
    obtain ⟨k, rfl⟩ := Nat.exists_eq_add_of_le hni
    exact ⟨k, rfl, hmerge k (by omega)⟩
  refine ⟨fun i hi => ?_, fun i hni hi => ?_, fun j hj => existsUnique_parent hmerge hroot hj, fun i hni hi => ?_⟩
  · simp [hleaf i hi, leafOf, zeroNode]
  · obtain ⟨k, rfl, hm⟩ := hat i hni hi
    have hll := mergedAt_child_lt hm (.inl rfl)
    have hrl := mergedAt_child_lt hm (.inr rfl)
    have hne := mergedAt_children_ne hm
    obtain ⟨hlp, hrp, hhs, hsym, hcnt, -⟩ := hm
    exact ⟨hlp, hrp, hhs, hsym, hll, hrl, hne, hcnt⟩
  · obtain ⟨k, rfl, hm⟩ := hat i hni hi
    have hll := mergedAt_child_lt hm (.inl rfl)
    have hrl := mergedAt_child_lt hm (.inr rfl)
    omega

/-! ### What the registers read -/

theorem readReg_ctrl (s : State) : s.readReg .ctrl = BitVec.ofNat 32 s.ie.toNat := by
  simp only [State.readReg]
  cases s.ie <;> decide

theorem errorFlag_eq_decide (s : State) : s.errorFlag = decide (s.err ≠ 0) := by
  simp [State.errorFlag, bne, Bool.beq_eq_decide_eq]

/-- The STATUS word as the sum of its flags (10_state.md R22). -/
theorem statusWord_eq_sum (s : State) :
    s.statusWord = BitVec.ofNat 32 (s.busy.toNat + 2 * s.done.toNat + 4 * s.errorFlag.toNat + 8 * s.treeValid.toNat +
      16 * s.codesValid.toNat + 32 * s.outValid.toNat + 64 * s.ovr.toNat) := by
  unfold State.statusWord
  generalize s.busy = b₀, s.done = b₁, s.errorFlag = b₂, s.treeValid = b₃, s.codesValid = b₄, s.outValid = b₅,
    s.ovr = b₆
  revert b₀ b₁ b₂ b₃ b₄ b₅ b₆
  decide

/-- Each register readable at any time stands at its offset, is no result area, and reads the listed value. -/
theorem openRegisters_read {s : State} {a d : Word} (h : (a, d) ∈ openRegisters s) :
    ∃ r, locate s.params a .b4 = some (.reg r) ∧ isResultArea (.reg r) = false ∧ s.readReg r = d := by
  simp only [openRegisters, List.mem_cons, Prod.mk.injEq, List.not_mem_nil, or_false] at h
  rcases h with ⟨rfl, rfl⟩ | ⟨rfl, rfl⟩ | ⟨rfl, rfl⟩ | ⟨rfl, rfl⟩ | ⟨rfl, rfl⟩ | ⟨rfl, rfl⟩ | ⟨rfl, rfl⟩ | ⟨rfl, rfl⟩ |
    ⟨rfl, rfl⟩ | ⟨rfl, rfl⟩ | ⟨rfl, rfl⟩
  · exact ⟨.id, rfl, rfl, rfl⟩
  · exact ⟨.srcCap, rfl, rfl, rfl⟩
  · exact ⟨.outCap, rfl, rfl, rfl⟩
  · exact ⟨.ctrl, rfl, rfl, readReg_ctrl s⟩
  · exact ⟨.cmd, rfl, rfl, rfl⟩
  · exact ⟨.status, rfl, rfl, by rw [← errorFlag_eq_decide]; exact statusWord_eq_sum s⟩
  · exact ⟨.err, rfl, rfl, (BitVec.ofNat_toNat 32 s.err).symm⟩
  · exact ⟨.errInfo, rfl, rfl, rfl⟩
  · exact ⟨.errIndex, rfl, rfl, rfl⟩
  · exact ⟨.ftabLen, rfl, rfl, (BitVec.ofNat_toNat 32 s.ftabLen).symm⟩
  · exact ⟨.srcLen, rfl, rfl, rfl⟩

/-- Each result register stands at its offset and reads the listed value. -/
theorem resultRegisters_read {s : State} {a d : Word} (h : (a, d) ∈ resultRegisters s) :
    ∃ r, locate s.params a .b4 = some (.reg r) ∧ s.readReg r = d := by
  simp only [resultRegisters, List.mem_cons, Prod.mk.injEq, List.not_mem_nil, or_false] at h
  rcases h with ⟨rfl, rfl⟩ | ⟨rfl, rfl⟩ | ⟨rfl, rfl⟩ | ⟨rfl, rfl⟩ | ⟨rfl, rfl⟩
  · exact ⟨.nodeCount, rfl, (BitVec.ofNat_toNat 32 s.nodeCount).symm⟩
  · exact ⟨.rootCntLo, rfl, rfl⟩
  · exact ⟨.rootCntHi, rfl, (BitVec.ofNat_toNat 32 s.rootCntHi).symm⟩
  · exact ⟨.hdrBitLen, rfl, (BitVec.ofNat_toNat 32 s.hdrBitLen).symm⟩
  · exact ⟨.outBitLen, rfl, rfl⟩

/-- Settles O14: the registers of both lists are read by value, a result register because the block is idle. -/
theorem registersReadTheirValues : Obligations.RegistersReadTheirValues := by
  intro s rest a d hi h
  rcases h with h | ⟨hb, h⟩
  · obtain ⟨r, hl, hr, hd⟩ := openRegisters_read h
    exact step_read_value hi hl (.inr hr) hd
  · obtain ⟨r, hl, hd⟩ := resultRegisters_read h
    exact step_read_value hi hl (.inl hb) hd

/-! ### What writes to registers do -/

/-- A write of 1 clears DONE and OVR, a write of 0 leaves them (10_state.md R22). -/
theorem writeStatus_eq_ite (s : State) (v : Word) :
    s.writeStatus v = { s with
      done := if v.getLsbD 1 then false else s.done, ovr := if v.getLsbD 6 then false else s.ovr } := by
  have hclear : ∀ b c : Bool, (b && !c) = if c then false else b := by decide
  simp only [State.writeStatus, hclear]

theorem setWidth_nine (v : Word) : v.setWidth 9 = BitVec.ofNat 9 (v.toNat % 512) := by
  apply BitVec.eq_of_toNat_eq
  simp

theorem step_write_ctrl {s : State} {v : Word} {rest : List Event} (h : s.inbox = .hostWrite 0x00C .b4 v :: rest) :
    step s = .next { s with inbox := rest, answer := some (.writeAnswer .okay), ie := v.getLsbD 0 } :=
  step_write_okay h (locate_ctrl _)

theorem step_write_status {s : State} {v : Word} {rest : List Event} (h : s.inbox = .hostWrite 0x014 .b4 v :: rest) :
    step s = .next { s with
      inbox := rest, answer := some (.writeAnswer .okay),
      done := if v.getLsbD 1 then false else s.done, ovr := if v.getLsbD 6 then false else s.ovr } := by
  rw [step_write_okay h (locate_status _), State.writeLoc, State.writeReg, writeStatus_eq_ite]
  rfl

/-- The write of a command word to an idle block (40_command_protocol.md R79). -/
theorem step_write_cmd_idle {s : State} {w : Word} {rest : List Event} (hb : s.busy = false)
    (h : s.inbox = .hostWrite 0x010 .b4 w :: rest) :
    step s = .next { s with
      inbox := rest, answer := some (.writeAnswer .okay), cmdLatch := w, busy := true, done := false } := by
  rw [step_write_okay h (locate_cmd _), State.writeLoc, State.writeReg, issue_idle (by exact hb)]
  rfl

/-- Settles O21, one location per part. -/
theorem registerWritesTakeEffect : Obligations.RegisterWritesTakeEffect := by
  intro s rest v
  refine ⟨step_write_ctrl, step_write_status, fun hb h => ?_, fun hb h => ?_⟩
  · rw [step_write_okay h (locate_ftabLen _), State.writeLoc, State.writeReg, storeUnlessBusy_idle (by exact hb),
      setWidth_nine]
    rfl
  · rw [step_write_okay h (locate_srcLen _), State.writeLoc, State.writeReg, storeUnlessBusy_idle (by exact hb)]
    rfl

/-! ### The interrupt -/

theorem irq_iff (s : State) : s.irq = true ↔ s.done = true ∧ s.ie = true := by simp [State.irq]

theorem irq_of_not_done {s : State} (h : s.done = false) : s.irq = false := by simp [State.irq, h]

theorem irq_of_done {s : State} (h : s.done = true) : s.irq = s.ie := by simp [State.irq, h]

theorem succeeds_ie {s u : State} (h : Succeeds s u) : u.ie = s.ie := by cases h <;> rfl

/-- A completion sets DONE, so irq follows IE, which no command writes (60_exceptions.md R128). -/
theorem engineComplete_irq {s t : State} (h : engineComplete s = .next t) : t.irq = s.ie := by
  rcases engineComplete_cases h with ⟨u, hu, rfl⟩ | ⟨e, rfl⟩
  · rw [irq_of_done u.succeed_done, State.succeed_ie, succeeds_ie hu]
  · rw [irq_of_done (s.fail_done e), State.fail_ie]

/-- Settles O25: each event by the DONE and IE it leaves. -/
theorem interruptFollowsDoneAndEnable : Obligations.InterruptFollowsDoneAndEnable := by
  refine ⟨irq_iff, fun p k => irq_of_not_done rfl, ?_, fun s t => engineComplete_irq, ?_, ?_, ?_⟩
  · intro s t rest h hs
    rw [step_resetInput h] at hs
    injection hs with hs
    exact hs ▸ irq_of_not_done (State.onReset_done _)
  · intro s t v rest h hv hs
    rw [step_write_status h] at hs
    injection hs with hs
    exact hs ▸ irq_of_not_done (if_pos hv)
  · intro s t w rest h hb hs
    rw [step_write_cmd_idle hb h] at hs
    injection hs with hs
    exact hs ▸ irq_of_not_done rfl
  · intro s t v rest h hv hd hs
    rw [step_write_ctrl h] at hs
    injection hs with hs
    exact hs ▸ (irq_iff _).2 ⟨hd, hv⟩

end Sys2Proof.Machine
end

section
/-! PROOFS. The memory family: which accesses the bus accepts, what a read answers, and what a write stores, drops or
ignores, with the block idle and with a command in progress. -/

namespace Sys2Proof.Machine

open Sys2Proof.Safety

/-! ### Accepted and refused accesses -/

theorem exists_locate_of_accepted {p : Config.Params} {a : Word} {n : BusSize}
    (h : busAccepts p a.toNat (sizeBytes n)) : ∃ l, locate p a n = some l :=
  Option.isSome_iff_exists.1 ((locate_isSome_iff p a n).2 h)

/-- An accepted access between the bases of SRC and OUT lies within SRC. -/
theorem locate_src_of_accepted {p : Config.Params} {a : Word} {n : BusSize} {i : Nat}
    (h : busAccepts p a.toNat (sizeBytes n)) (ha : a.toNat = 0x01000000 + i) (hi : i < 0x01000000) :
    locate p a n = some (.srcByte i) := by
  obtain ⟨hm, hmap⟩ := h
  exact locate_src hm ha (by omega)

/-- An accepted access to the FTAB window reaches one of the two words of an entry. -/
theorem locate_ftab_of_accepted {p : Config.Params} {a : Word} {n : BusSize} (h : busAccepts p a.toNat (sizeBytes n))
    (h₁ : 0x1000 ≤ a.toNat) (h₂ : a.toNat < 0x1800) :
    ∃ i, locate p a n = some (.ftabSymWord i) ∨ locate p a n = some (.ftabCntWord i) := by
  obtain rfl := size_of_accepted_word h (by omega)
  have hm : a.toNat % 4 = 0 := h.1
  refine ⟨(a.toNat - 0x1000) / 8, ?_⟩
  by_cases h8 : a.toNat % 8 = 0
  · exact .inl (locate_ftabSym (by omega) (by omega))
  · exact .inr (locate_ftabCnt (by omega) (by omega))

/-- An accepted read is answered OKAY, by value or by a draw. -/
theorem memRead_answer_okay {s : State} {a : Word} {n : BusSize} (h : busAccepts s.params a.toNat (sizeBytes n)) :
    ∃ d, (s.memRead a n).answer = some (.readAnswer .okay d) := by
  rcases memRead_cases s a n with ⟨hl, -⟩ | ⟨l, -, -, -, e⟩ | ⟨l, -, -, e⟩
  · exact absurd h ((locate_eq_none_iff _ a n).1 hl)
  · exact ⟨_, by rw [e, State.readDraw_answer]⟩
  · exact ⟨_, by rw [e, State.answerRead_answer]⟩

theorem memRead_error {s : State} {a : Word} {n : BusSize} (h : locate s.params a n = none) :
    s.memRead a n = s.answerRead .error 0 := by
  simp [State.memRead, h]

/-- Settles O12: the refused accesses are those that reach no location. -/
theorem busErrorExactlyForUnacceptedAccess : Obligations.BusErrorExactlyForUnacceptedAccess := by
  intro s rest a n v
  have hnone := (locate_eq_none_iff s.params a n).2
  refine ⟨fun hi => ⟨fun h => ?_, fun h => ?_⟩, fun hi => ⟨fun h => ?_, fun h => ?_⟩⟩
  · rw [step_hostRead hi, memRead_error (s := { s with inbox := rest }) (hnone h)]
    rfl
  · obtain ⟨d, hd⟩ := memRead_answer_okay (s := { s with inbox := rest }) h
    exact ⟨_, d, step_hostRead hi, hd⟩
  · rw [step_hostWrite hi, memWrite_error (s := { s with inbox := rest }) v (hnone h)]
    rfl
  · obtain ⟨l, hl⟩ := exists_locate_of_accepted h
    exact ⟨_, step_write_okay hi hl, State.answerWrite_answer _ _⟩

/-! ### Reads -/

/-- Only a read of a result area while BUSY = 1 is a draw (20_memory.md R53). -/
theorem memRead_draws_idle {s : State} (h : s.busy = false) (a : Word) (n : BusSize) :
    (s.memRead a n).draws = s.draws := by
  rcases memRead_cases s a n with ⟨-, e⟩ | ⟨l, -, hb, -, -⟩ | ⟨l, -, -, e⟩
  · rw [e, State.answerRead_draws]
  · rw [h] at hb
    cases hb
  · rw [e, State.answerRead_draws]

/-- Settles O13: the frame of a read. -/
theorem readsHaveNoSideEffect : Obligations.ReadsHaveNoSideEffect := by
  intro s rest a n hi
  exact ⟨_, step_hostRead hi, memRead_frame _ a n, fun hb => memRead_draws_idle (s := { s with inbox := rest }) hb a n⟩

/-- A read of SRC answers its bytes little-endian, BUSY or not. -/
theorem step_read_src {s : State} {rest : List Event} {a : Word} {n : BusSize} {i : Nat}
    (h : s.inbox = .hostRead a n :: rest) (hl : locate s.params a n = some (.srcByte i)) :
    ∃ d, d.toNat = ((List.range (sizeBytes n)).map fun k => (s.srcAt (i + k)).toNat * 256 ^ k).sum ∧
      step s = .next { s with inbox := rest, answer := some (.readAnswer .okay d) } :=
  ⟨_, (leWord_toNat s.srcAt _ i (sizeBytes_le n)).1, step_read_value h hl (.inr rfl) rfl⟩

/-- A read of OUT answers its bytes little-endian while the block is idle. -/
theorem step_read_out {s : State} {rest : List Event} {a : Word} {n : BusSize} {i : Nat}
    (h : s.inbox = .hostRead a n :: rest) (hl : locate s.params a n = some (.outByte i)) (hb : s.busy = false) :
    ∃ d, d.toNat = ((List.range (sizeBytes n)).map fun k => (s.outAt (i + k)).toNat * 256 ^ k).sum ∧
      step s = .next { s with inbox := rest, answer := some (.readAnswer .okay d) } :=
  ⟨_, (leWord_toNat s.outAt _ i (sizeBytes_le n)).1, step_read_value h hl (.inl hb) rfl⟩

/-- Settles O16, one window per part. -/
theorem byteWindowsReadLittleEndian : Obligations.ByteWindowsReadLittleEndian := by
  intro s rest a n i hp h hm
  exact ⟨fun ha hi => step_read_src h (locate_src hm ha hi), fun ha hi => step_read_out h (locate_out hp hm ha hi)⟩

/-- Settles O15: the accepted reads by the location they reach, a result area or not. -/
theorem busyReadsOfResultsAreDraws : Obligations.BusyReadsOfResultsAreDraws := by
  intro s rest a n hb h hacc
  refine ⟨fun ha hp => ?_, fun d hn hd => ?_, fun i hi ha => ?_, fun i hi ha => ?_, fun i hi ha hp => ?_⟩
  · obtain ⟨l, hl⟩ := exists_locate_of_accepted hacc
    exact step_read_draw h hb hl (resultArea_of_locate hp hl ha).1
  · subst hn
    obtain ⟨r, hl, hr, hv⟩ := openRegisters_read hd
    exact step_read_value h hl (.inr hr) hv
  · obtain rfl := size_of_accepted_word hacc (by omega)
    exact step_read_value h (locate_ftabSym hi ha) (.inr rfl) (BitVec.ofNat_toNat 32 _).symm
  · obtain rfl := size_of_accepted_word hacc (by omega)
    exact step_read_value h (locate_ftabCnt hi (by omega)) (.inr rfl) rfl
  · obtain ⟨-, hcap, -⟩ := hp
    exact step_read_src h (locate_src_of_accepted hacc ha (by omega))

/-! ### Writes to SRC -/

/-- Byte k of a word (20_memory.md R55). -/
theorem byte_toNat (v : Word) (k : Nat) : ((v >>> (8 * k)).setWidth 8).toNat = v.toNat / 256 ^ k % 256 := by
  simp only [BitVec.toNat_setWidth, BitVec.toNat_ushiftRight, Nat.shiftRight_eq_div_pow, pow_mul]
  norm_num

/-- SRC after a store of `n` bytes at `i`. -/
theorem srcAt_storeBytes {s t : State} {n i : Nat} {v : Word} (hr : t.resets = s.resets)
    (ht : t.src = Memory.storeBytes n s.src i v) (j : Nat) :
    t.srcAt j = if i ≤ j ∧ j < i + n then (v >>> (8 * (j - i))).setWidth 8 else s.srcAt j := by
  simp only [State.srcAt, ht, hr, Memory.find_storeBytes]
  split <;> rfl

theorem step_write_src_idle {s : State} {rest : List Event} {a : Word} {n : BusSize} {v : Word} {i : Nat}
    (hb : s.busy = false) (h : s.inbox = .hostWrite a n v :: rest) (hl : locate s.params a n = some (.srcByte i)) :
    ∃ t, step s = .next t ∧ t = { s with
      inbox := rest, answer := some (.writeAnswer .okay), src := Memory.storeBytes (sizeBytes n) s.src i v } := by
  refine ⟨_, step_write_okay h hl, ?_⟩
  rw [State.writeLoc, storeUnlessBusy_idle (by exact hb)]
  rfl

/-- Settles O17, by the cells a store writes. -/
theorem sourceWritesStoreTheirBytes : Obligations.SourceWritesStoreTheirBytes := by
  intro s rest a n v i _ hb h hm ha hi
  obtain ⟨t, hs, ht⟩ := step_write_src_idle hb h (locate_src hm ha hi)
  have hcell := srcAt_storeBytes (s := s) (t := t) (by rw [ht]) (by rw [ht])
  refine ⟨t, hs, by rw [ht], fun k hk => ?_, fun j hj => ?_⟩
  · rw [hcell, if_pos (by omega), Nat.add_sub_cancel_left, byte_toNat]
  · rw [hcell, if_neg (by omega)]

/-! ### Writes that are ignored or dropped -/

/-- Settles O22: a read-only location keeps the state it is written in. -/
theorem readOnlyWritesAreIgnored : Obligations.ReadOnlyWritesAreIgnored := by
  intro s rest a n v hp h hacc ha
  obtain ⟨l, hl⟩ := exists_locate_of_accepted hacc
  rw [step_write_okay h hl, writeLoc_of_readOnly hp hl ha]
  rfl

/-- The locations whose writes a busy block drops: CMD and the inputs of a command (20_memory.md R52). -/
def isDroppedWhileBusy : Loc → Bool
  | .reg .cmd => true
  | .reg .ftabLen => true
  | .reg .srcLen => true
  | .ftabSymWord _ => true
  | .ftabCntWord _ => true
  | .srcByte _ => true
  | _ => false

/-- A dropped write sets OVR and nothing else (20_memory.md R52). -/
theorem writeLoc_dropped {s : State} (hb : s.busy = true) {l : Loc} (hl : isDroppedWhileBusy l = true) (n : BusSize)
    (v : Word) : s.writeLoc n v l = { s with ovr := true } := by
  cases l with
  | reg r =>
    cases r
    case cmd => exact issue_busy hb v
    case ftabLen => exact storeUnlessBusy_busy hb _
    case srcLen => exact storeUnlessBusy_busy hb _
    all_goals cases hl
  | ftabSymWord i => exact storeUnlessBusy_busy hb _
  | ftabCntWord i => exact storeUnlessBusy_busy hb _
  | srcByte i => exact storeUnlessBusy_busy hb _
  | nodeWord i k => cases hl
  | ctabWord c k => cases hl
  | outByte j => cases hl

/-- Where CMD and the inputs of a command stand in the map (20_memory.md R45). -/
theorem locate_droppedWhileBusy {p : Config.Params} {a : Word} {n : BusSize} (h : busAccepts p a.toNat (sizeBytes n))
    (ha : a.toNat = 0x010 ∨ a.toNat = 0x024 ∨ a.toNat = 0x028 ∨ (0x1000 ≤ a.toNat ∧ a.toNat < 0x1800) ∨
      (0x01000000 ≤ a.toNat ∧ a.toNat < 0x02000000)) :
    ∃ l, locate p a n = some l ∧ isDroppedWhileBusy l = true := by
  have hreg : ∀ w : Word, a.toNat = w.toNat → w.toNat < 0x8000 → n = .b4 ∧ a = w := fun w e hw =>
    ⟨size_of_accepted_word h (by omega), BitVec.eq_of_toNat_eq e⟩
  rcases ha with e | e | e | ⟨h₁, h₂⟩ | ⟨h₁, h₂⟩
  · obtain ⟨rfl, rfl⟩ := hreg 0x010 e (by decide)
    exact ⟨_, locate_cmd p, rfl⟩
  · obtain ⟨rfl, rfl⟩ := hreg 0x024 e (by decide)
    exact ⟨_, locate_ftabLen p, rfl⟩
  · obtain ⟨rfl, rfl⟩ := hreg 0x028 e (by decide)
    exact ⟨_, locate_srcLen p, rfl⟩
  · obtain ⟨i, hl | hl⟩ := locate_ftab_of_accepted h h₁ h₂
    · exact ⟨_, hl, rfl⟩
    · exact ⟨_, hl, rfl⟩
  · exact ⟨_, locate_src_of_accepted (i := a.toNat - 0x01000000) h (by omega) (by omega), rfl⟩

/-- An accepted write while BUSY = 1 leaves BUSY, the latch and the inputs of the command in progress (20_memory.md R52). -/
theorem step_write_busy_inputs {s : State} {rest : List Event} {a : Word} {n : BusSize} {v : Word} {l : Loc}
    (hb : s.busy = true) (h : s.inbox = .hostWrite a n v :: rest) (hl : locate s.params a n = some l) :
    ∃ t, step s = .next t ∧ t.busy = true ∧ t.cmdLatch = s.cmdLatch ∧ t.ftabLen = s.ftabLen ∧ t.srcLen = s.srcLen ∧
      t.ftabSym = s.ftabSym ∧ t.ftabCnt = s.ftabCnt ∧ t.src = s.src := by
  refine ⟨_, step_write_okay h hl, ?_⟩
  rw [writeLoc_busy _ n v l (by exact hb)]
  exact ⟨hb, rfl, rfl, rfl, rfl, rfl, rfl⟩

/-- Settles O23: the accepted writes by the group of locations they reach. -/
theorem busyWritesAreDropped : Obligations.BusyWritesAreDropped := by
  intro s rest a n v hp hb h hacc
  refine ⟨fun ha => ?_, fun ha => ?_, fun ha => ?_, readOnlyWritesAreIgnored s rest a n v hp h hacc, ?_⟩
  · obtain ⟨l, hl, hin⟩ := locate_droppedWhileBusy hacc ha
    rw [step_write_okay h hl, writeLoc_dropped (by exact hb) hin]
    rfl
  · obtain rfl := size_of_accepted_word hacc (by omega)
    obtain rfl : a = 0x00C := BitVec.eq_of_toNat_eq ha
    exact step_write_ctrl h
  · obtain rfl := size_of_accepted_word hacc (by omega)
    obtain rfl : a = 0x014 := BitVec.eq_of_toNat_eq ha
    exact step_write_status h
  · obtain ⟨l, hl⟩ := exists_locate_of_accepted hacc
    exact step_write_busy_inputs hb h hl

end Sys2Proof.Machine
end

section
/-! PROOFS. The encoding family: command words and their decoder, the completion of an illegal word, and the layout
of the words of the FTAB, NODE and CTAB windows. -/

namespace Sys2Proof

/-! ### Command words -/

/-- The well-formed words are the ones with no MBZ bit set and the number of a command in OP (30_encoding.md R67). -/
theorem cmdWellFormed_iff (w : Word) : cmdWellFormed w = true ↔ ∃ i, cmdMbz w = 0 ∧ cmdOp w = opOf i := by
  simp only [cmdWellFormed, Bool.and_eq_true, Bool.or_eq_true, beq_iff_eq]
  constructor
  · rintro ⟨hm, (ho | ho) | ho⟩
    · exact ⟨.buildTree, hm, ho⟩
    · exact ⟨.buildCodes, hm, ho⟩
    · exact ⟨.encode, hm, ho⟩
  · rintro ⟨i, hm, ho⟩
    cases i with
    | buildTree => exact ⟨hm, .inl (.inl ho)⟩
    | buildCodes => exact ⟨hm, .inl (.inr ho)⟩
    | encode => exact ⟨hm, .inr ho⟩

theorem cmdWellFormed_iff_decodes (w : Word) : cmdWellFormed w = true ↔ ∃ i, decode w = .ok i := by
  simp only [cmdWellFormed_iff, decode_eq_ok_iff]

/-- Settles O2: a word decodes to a command exactly when it is that command's word, and then it is well formed. -/
theorem decodeAndEncodeAgree : Obligations.DecodeAndEncodeAgree :=
  ⟨fun i => ⟨decode_encode i, (cmdWellFormed_iff_decodes _).2 ⟨i, decode_encode i⟩⟩,
    fun w i h => ((decode_ok_iff_eq_encode w i).1 h).symm, cmdWellFormed_iff_decodes⟩

theorem decode_of_mbz_ne_zero {w : Word} (h : cmdMbz w ≠ 0) : decode w = .error .mbzNotZero := if_neg h

theorem decode_of_mbz_eq_zero {w : Word} (h : cmdMbz w = 0) : decode w = decodeOp (cmdOp w) := if_pos h

/-- Settles O3: a legal word is its command's word, an illegal one is refused for MBZ, or for OP where MBZ is 0. -/
theorem commandWordSanity : Obligations.CommandWordSanity := by
  refine ⟨decode_encode .buildTree, decode_encode .buildCodes, decode_encode .encode, ?_, ?_, ?_, ?_⟩
  · exact decode_of_mbz_eq_zero (by decide)
  · exact decode_of_mbz_eq_zero (by decide)
  · exact decode_of_mbz_ne_zero (by decide)
  · exact decode_of_mbz_ne_zero (by decide)

end Sys2Proof

namespace Sys2Proof.Machine

/-! ### Illegal words -/

/-- ENGINE's turn with an illegal word in the latch completes it with IllegalCommand(w, 0) (30_encoding.md R68). -/
theorem step_engineStep_illegal {s : State} {rest : List Event} {e : DecodeError} (hb : s.busy = true)
    (hd : decode s.cmdLatch = .error e) (h : s.inbox = .engineStep :: rest) :
    step s = .next { s with
      inbox := rest, err := 5, errInfo := s.cmdLatch, errIndex := 0, busy := false, done := true } := by
  rw [step_engineStep h, engineTurn_busy (by exact hb), engineComplete_error (e := e) (by exact hd), completeIllegal_eq]
  rfl

/-- Settles O7: the issue does not look at the word, and the completion finds that it does not decode. -/
theorem illegalWordCompletesWithIllegalCommand : Obligations.IllegalWordCompletesWithIllegalCommand := by
  intro s w hw
  refine ⟨fun rest hb h => step_write_cmd_idle hb h, fun rest hb hl h => ?_⟩
  obtain ⟨e, hd⟩ := decode_error_of_illegal hw
  subst hl
  exact step_engineStep_illegal hb hd h

/-! ### The FTAB window -/

theorem step_write_ftabSym_idle {s : State} {rest : List Event} {a v : Word} {i : Nat} (hb : s.busy = false)
    (h : s.inbox = .hostWrite a .b4 v :: rest) (hl : locate s.params a .b4 = some (.ftabSymWord i)) :
    ∃ t, step s = .next t ∧ t = { s with
      inbox := rest, answer := some (.writeAnswer .okay), ftabSym := Table.write s.ftabSym i (v.setWidth 8) } := by
  refine ⟨_, step_write_okay h hl, ?_⟩
  rw [State.writeLoc, storeUnlessBusy_idle (by exact hb)]
  rfl

theorem step_write_ftabCnt_idle {s : State} {rest : List Event} {a v : Word} {i : Nat} (hb : s.busy = false)
    (h : s.inbox = .hostWrite a .b4 v :: rest) (hl : locate s.params a .b4 = some (.ftabCntWord i)) :
    ∃ t, step s = .next t ∧ t = { s with
      inbox := rest, answer := some (.writeAnswer .okay), ftabCnt := Table.write s.ftabCnt i v } := by
  refine ⟨_, step_write_okay h hl, ?_⟩
  rw [State.writeLoc, storeUnlessBusy_idle (by exact hb)]
  rfl

/-- The symbols of FTAB after one of them is written. -/
theorem ftabAt_sym_of_write {s t : State} {i : Nat} {b : Byte} (hr : t.resets = s.resets)
    (ht : t.ftabSym = Table.write s.ftabSym i b) (j : Nat) :
    (t.ftabAt j).sym = if j = i then b else (s.ftabAt j).sym := by
  simp only [State.ftabAt, ht, hr, Table.find_write]
  split <;> rfl

/-- The counts of FTAB after one of them is written. -/
theorem ftabAt_cnt_of_write {s t : State} {i : Nat} {v : BitVec 32} (hr : t.resets = s.resets)
    (ht : t.ftabCnt = Table.write s.ftabCnt i v) (j : Nat) :
    (t.ftabAt j).cnt = if j = i then v else (s.ftabAt j).cnt := by
  simp only [State.ftabAt, ht, hr, Table.find_write]
  split <;> rfl

/-- Settles O18, one word and one direction per part. -/
theorem frequencyTableWindowLayout : Obligations.FrequencyTableWindowLayout := by
  intro s rest a v i hi
  refine ⟨fun h ha => ?_, fun h ha => ?_, fun hb h ha => ?_, fun hb h ha => ?_⟩
  · exact step_read_value h (locate_ftabSym hi ha) (.inr rfl) (BitVec.ofNat_toNat 32 _).symm
  · exact step_read_value h (locate_ftabCnt hi ha) (.inr rfl) rfl
  · obtain ⟨t, hs, ht⟩ := step_write_ftabSym_idle hb h (locate_ftabSym hi ha)
    have hsym := ftabAt_sym_of_write (s := s) (t := t) (by rw [ht]) (by rw [ht])
    refine ⟨t, hs, by rw [ht], ?_, fun j hj => ?_⟩
    · rw [hsym, if_pos rfl, BitVec.toNat_setWidth]
    · rw [hsym, if_neg hj]
  · obtain ⟨t, hs, ht⟩ := step_write_ftabCnt_idle hb h (locate_ftabCnt hi ha)
    have hcnt := ftabAt_cnt_of_write (s := s) (t := t) (by rw [ht]) (by rw [ht])
    refine ⟨t, hs, by rw [ht], ?_, fun j hj => ?_⟩
    · rw [hcnt, if_pos rfl]
    · rw [hcnt, if_neg hj]

/-! ### The NODE window -/

theorem nodeWordOf_zero_toNat (nd : Node) : (nodeWordOf nd 0).toNat = nd.cnt.toNat % 2 ^ 32 :=
  BitVec.toNat_setWidth 32 nd.cnt

theorem nodeWordOf_one_toNat (nd : Node) : (nodeWordOf nd 1).toNat = nd.cnt.toNat / 2 ^ 32 := by
  have hlt := nd.cnt.isLt
  simp only [nodeWordOf, BitVec.toNat_setWidth, BitVec.extractLsb'_toNat, Nat.shiftRight_eq_div_pow]
  omega

theorem nodeWordOf_two_toNat (nd : Node) : (nodeWordOf nd 2).toNat =
    nd.lp.toNat * 2 ^ 31 + nd.rp.toNat * 2 ^ 30 + nd.right.toNat * 2 ^ 16 + nd.left.toNat := by
  simp only [nodeWordOf, append_toNat, BitVec.toNat_ofBool, BitVec.toNat_ofNat]
  omega

theorem nodeWordOf_three_toNat (nd : Node) : (nodeWordOf nd 3).toNat = nd.hs.toNat * 2 ^ 31 + nd.sym.toNat := by
  simp only [nodeWordOf, append_toNat, BitVec.toNat_ofBool, BitVec.toNat_ofNat]
  omega

/-- Settles O19: the address reaches word k of entry i, which ignores a write and is read by value while idle. -/
theorem nodeWindowLayout : Obligations.NodeWindowLayout := by
  intro s rest a v i k hi hk ha
  have hl := locate_node (p := s.params) hi hk ha
  refine ⟨fun h => step_write_okay h hl, fun hb h => ⟨_, step_read_value h hl (.inl hb) rfl, ?_, ?_, ?_, ?_⟩⟩
  · rintro rfl
    exact nodeWordOf_zero_toNat _
  · rintro rfl
    exact nodeWordOf_one_toNat _
  · rintro rfl
    exact nodeWordOf_two_toNat _
  · rintro rfl
    exact nodeWordOf_three_toNat _

/-! ### The CTAB window -/

theorem codeBits_getD (e : CodeEntry) (k : Nat) :
    (codeBits e).getD k false = (e.code.getMsbD k && decide (k < e.len.toNat)) := by
  by_cases h : k < e.len.toNat <;> simp [codeBits, h]

/-- The mask keeps the first `len` bits of the code field, that is the codeword (10_state.md R35). -/
theorem maskedCode_getMsbD (e : CodeEntry) (k : Nat) : (maskedCode e).getMsbD k = (codeBits e).getD k false := by
  have hlen := e.len.isLt
  have hmask : k + (256 - e.len.toNat) < 256 ↔ k < e.len.toNat := by omega
  rw [codeBits_getD, maskedCode, BitVec.getMsbD_and, BitVec.getMsbD_shiftLeft, BitVec.getMsbD_allOnes,
    decide_eq_decide.2 hmask]

/-- Bit `31 - b` of word `j + 1` is bit `32 * j + b` of the codeword, the first bit on the left (30_encoding.md R72). -/
theorem ctabWordOf_code_getLsbD (e : CodeEntry) {j b : Nat} (hj : j < 8) (hb : b < 32) :
    (ctabWordOf e (j + 1)).getLsbD (31 - b) = (codeBits e).getD (32 * j + b) false := by
  have hbit : 224 - 32 * j + (31 - b) = 256 - 1 - (32 * j + b) := by omega
  rw [← maskedCode_getMsbD, ctabWordOf, if_pos hj, BitVec.getLsbD_extractLsb', hbit, BitVec.getMsbD_eq_getLsbD]
  simp only [show 31 - b < 32 by omega, show 32 * j + b < 256 by omega]

theorem ctabWordOf_zero_toNat (e : CodeEntry) : (ctabWordOf e 0).toNat = e.valid.toNat * 2 ^ 31 + e.len.toNat := by
  simp only [ctabWordOf, append_toNat, BitVec.toNat_ofBool, BitVec.toNat_ofNat]
  omega

theorem ctabWordOf_reserved (e : CodeEntry) {k : Nat} (hk : 9 ≤ k) : ctabWordOf e k = 0 := by
  obtain ⟨j, rfl⟩ := Nat.exists_eq_add_of_le' (Nat.one_le_of_lt hk)
  exact if_neg (by omega)

/-- Settles O20: the address reaches word k of entry c, which ignores a write and is read by value while idle. -/
theorem codeTableWindowLayout : Obligations.CodeTableWindowLayout := by
  intro s rest a v c k hc hk ha
  have hl := locate_ctab (p := s.params) hc hk ha
  refine ⟨fun h => step_write_okay h hl, fun hb h =>
    ⟨_, step_read_value h hl (.inl hb) rfl, ?_, fun h₁ h₈ b hb => ?_, ?_⟩⟩
  · rintro rfl
    exact ctabWordOf_zero_toNat _
  · obtain ⟨j, rfl⟩ := Nat.exists_eq_add_of_le' h₁
    exact ctabWordOf_code_getLsbD _ (by omega) hb
  · exact ctabWordOf_reserved _

end Sys2Proof.Machine
end

section
/-! PROOFS. The command protocol family: the issue of a command, its completion with and without an error, the life of
the validity flags, the frame and the operands of each command, and that every command in progress is completed. -/

namespace Sys2Proof.Machine

open Sys2Proof.Safety

/-! ### Issue and completion -/

/-- Settles O1: the four cases of a command word. -/
theorem decodeAcceptsExactlyThreeWords : Obligations.DecodeAcceptsExactlyThreeWords := by
  intro w
  rcases decode_word_cases w with ⟨rfl, hd⟩ | ⟨rfl, hd⟩ | ⟨rfl, hd⟩ | ⟨h₁, h₂, h₃, e, hd⟩
  · rw [hd, if_pos rfl]
    rfl
  · rw [hd, if_neg (by decide), if_pos rfl]
    rfl
  · rw [hd, if_neg (by decide), if_neg (by decide), if_pos rfl]
    rfl
  · rw [hd, if_neg h₁, if_neg h₂, if_neg h₃]
    rfl

/-- A write to CMD while BUSY = 1 is dropped (40_command_protocol.md R79). -/
theorem step_write_cmd_busy {s : State} {w : Word} {rest : List Event} (hb : s.busy = true)
    (h : s.inbox = .hostWrite 0x010 .b4 w :: rest) :
    step s = .next { s with inbox := rest, answer := some (.writeAnswer .okay), ovr := true } := by
  rw [step_write_okay h (locate_cmd _), writeLoc_dropped (by exact hb) rfl]
  rfl

/-- Settles O4: the write of a word to an idle block, and to a busy one. -/
theorem commandIssueLatchesTheWord : Obligations.CommandIssueLatchesTheWord := by
  intro s w rest h
  split
  · next hb => exact step_write_cmd_busy hb h
  · next hb => exact step_write_cmd_idle (eq_false_of_ne_true hb) h

/-- Settles O5: ENGINE's turn, from the inbox or with no event waiting, is the completion of the word in the latch. -/
theorem stepRunsTheDecodedCommand : Obligations.StepRunsTheDecodedCommand := by
  intro s i hb hd
  refine ⟨fun h => ?_, fun rest h => ?_⟩
  · rw [step_quiet h, engineTurn_busy hb, engineComplete_ok hd]
  · rw [step_engineStep h, engineTurn_busy (by exact hb), engineComplete_ok (by exact hd)]

/-- Settles O6: ENGINE's turn of an idle block does nothing. -/
theorem idleBlockStaysAsItIs : Obligations.IdleBlockStaysAsItIs := by
  intro s hb
  refine ⟨fun h => ?_, fun rest h => ?_⟩
  · rw [step_quiet h, engineTurn_idle hb]
  · rw [step_engineStep h, engineTurn_idle (by exact hb)]

/-! ### The end of a command -/

theorem succeeds_inbox {s u : State} (h : Succeeds s u) : u.inbox = s.inbox := by cases h <;> rfl

/-- The end of every completion step (40_command_protocol.md R80); the events waiting are untouched. -/
theorem engineComplete_ends {s t : State} (h : engineComplete s = .next t) :
    t.busy = false ∧ t.done = true ∧ t.inbox = s.inbox := by
  rcases engineComplete_cases h with ⟨u, hu, rfl⟩ | ⟨e, rfl⟩
  · exact ⟨rfl, rfl, (succeeds_inbox hu :)⟩
  · exact ⟨rfl, rfl, rfl⟩

/-- Every completion leaves a code of 60_exceptions.md R125, and (0, 0, 0) on success (40_command_protocol.md R84). -/
theorem engineComplete_errorOk {s t : State} (h : engineComplete s = .next t) : ErrorOk t := by
  rcases engineComplete_cases h with ⟨u, -, rfl⟩ | ⟨e, rfl⟩
  · exact succeed_errorOk u
  · exact ⟨errorCode_le_seven e.name, fun h₀ => absurd h₀ (fail_err_ne_zero s e)⟩

/-- Settles O8, by the end of a completion and the error registers it leaves. -/
theorem completionWritesErrorRegisters : Obligations.CompletionWritesErrorRegisters := by
  refine ⟨fun s code info index => rfl, fun s => ?_, fun s t h => ?_⟩
  · rw [errorFlag_eq_decide, decide_eq_true_iff]
  · obtain ⟨hbusy, hdone, -⟩ := engineComplete_ends h
    obtain ⟨hcode, hzero⟩ := engineComplete_errorOk h
    exact ⟨hbusy, hdone, hzero, hcode⟩

/-- A completion leaves ERR = 0, or it is that of a failed command (40_command_protocol.md R83). -/
theorem err_eq_zero_or_fail {s t : State} (h : (∃ u, Succeeds s u ∧ t = u.succeed) ∨ ∃ e, t = s.fail e) :
    t.err = 0 ∨ ∃ e, t = s.fail e := by
  rcases h with ⟨u, -, rfl⟩ | hf
  · exact .inl u.succeed_err
  · exact .inr hf

/-- Settles O9: only an error leaves ERR not 0, and then the frame of a failed command is the claim. -/
theorem failedCommandChangesOnlyErrorRegisters : Obligations.FailedCommandChangesOnlyErrorRegisters := by
  intro s t h he
  obtain ⟨e, rfl⟩ := (err_eq_zero_or_fail (engineComplete_cases h)).resolve_left he
  exact fail_frame s e

/-! ### Validity flags and frames -/

/-- Settles O10: the reset, the three successes, the failure, and the two commands that come too early. -/
theorem validityFlagLifecycle : Obligations.ValidityFlagLifecycle := by
  refine ⟨?_, ?_, ?_, ?_, ?_, fun s h => ⟨_, exec_buildCodes_no_tree h, rfl⟩, fun s h => ⟨_, exec_encode_no_codes h, rfl⟩⟩
  · intro s t rest hi h
    rw [step_resetInput hi] at h
    injection h with h
    subst h
    exact ⟨rfl, rfl, rfl⟩
  · intro s t h he
    obtain ⟨-, rfl⟩ := exec_buildTree_success h he
    exact ⟨rfl, rfl, rfl⟩
  · intro s t h he
    obtain ⟨codes, -, -, -, rfl⟩ := exec_buildCodes_success h he
    exact ⟨rfl, rfl, rfl⟩
  · intro s t h he
    obtain ⟨-, -, rfl⟩ := exec_encode_success h he
    exact ⟨rfl, rfl, rfl⟩
  · intro s t h he
    obtain ⟨e, rfl⟩ := (err_eq_zero_or_fail (engineComplete_cases h)).resolve_left he
    exact ⟨rfl, rfl, rfl⟩

/-- Bytes of OUT from the end of the stream on keep their values (43_bitstream_encoder.md R120). -/
theorem exec_encode_outAt_past {s t : State} (h : exec .encode s = .next t) {j : Nat}
    (hj : byteCount (specStream s).length ≤ j) : t.outAt j = s.outAt j := by
  rcases err_eq_zero_or_fail (exec_cases h) with he | ⟨e, rfl⟩
  · obtain ⟨-, -, rfl⟩ := exec_encode_success h he
    exact (encodedState_outAt s j).trans (if_neg (by omega))
  · rfl

/-- Settles O11: each command by its success, whose updates are listed, and its failure, which has none. -/
theorem commandFrames : Obligations.CommandFrames := by
  refine ⟨fun s t h => ?_, fun s t h => ?_, fun s t h => ⟨?_, fun j hj => ?_⟩⟩
  · rcases err_eq_zero_or_fail (exec_cases h) with he | ⟨e, rfl⟩
    · obtain ⟨-, rfl⟩ := exec_buildTree_success h he
      rfl
    · rfl
  · rcases err_eq_zero_or_fail (exec_cases h) with he | ⟨e, rfl⟩
    · obtain ⟨codes, -, -, -, rfl⟩ := exec_buildCodes_success h he
      rfl
    · rfl
  · rcases err_eq_zero_or_fail (exec_cases h) with he | ⟨e, rfl⟩
    · obtain ⟨-, -, rfl⟩ := exec_encode_success h he
      rfl
    · rfl
  · rw [streamBits_eq] at hj
    exact exec_encode_outAt_past h hj

/-! ### Operands -/

/-- A command checks its operands, which gives `r`, and then writes its results, `f` in one state and `g` in another. Where
the checks agree, so do the completions: in the error registers, and on success in what `P` says of the results. -/
theorem finish_map_agree {α : Type} {P : State → State → Prop} {r : Except CmdFail α} {f g : α → State} {s₁ s₂ t₁ : State}
    (hP : ∀ a, P (f a).succeed (g a).succeed) (h : finish s₁ (r.map f) = .next t₁) :
    ∃ t₂, finish s₂ (r.map g) = .next t₂ ∧ t₁.err = t₂.err ∧ t₁.errInfo = t₂.errInfo ∧ t₁.errIndex = t₂.errIndex ∧
      (t₁.err = 0 → P t₁ t₂) := by
  match r, h with
  | .ok a, h =>
    obtain rfl : (f a).succeed = t₁ := by injection h
    exact ⟨(g a).succeed, rfl, rfl, rfl, rfl, fun _ => hP a⟩
  | .error (.raised e), h =>
    obtain rfl : s₁.fail e = t₁ := by injection h
    exact ⟨s₂.fail e, rfl, rfl, rfl, rfl, fun he => absurd he (fail_err_ne_zero s₁ e)⟩
  | .error (.stopped e), h => cases h

/-! ### The operands of ENCODE -/

/-- The operands of ENCODE (30_encoding.md R69) and the parameters have the same values in two states. -/
structure SameEncodeOperands (s t : State) : Prop where
  params : s.params = t.params
  codesValid : s.codesValid = t.codesValid
  srcLen : s.srcLen = t.srcLen
  ctabAt : ∀ c, c < 256 → s.ctabAt c = t.ctabAt c
  srcAt : ∀ i, i < s.srcLen.toNat → s.srcAt i = t.srcAt i

theorem SameEncodeOperands.specHeader_eq {s t : State} (h : SameEncodeOperands s t) :
    specHeader s = specHeader t := specHeader_congr h.ctabAt

theorem SameEncodeOperands.specStream_eq {s t : State} (h : SameEncodeOperands s t) :
    specStream s = specStream t := by
  rw [specStream, specStream, h.specHeader_eq, specPayload_congr h.ctabAt h.srcLen h.srcAt]

theorem SameEncodeOperands.srcList_eq {s t : State} (h : SameEncodeOperands s t) : s.srcList = t.srcList := by
  rw [State.srcList, State.srcList, ← h.srcLen]
  exact List.map_congr_left fun i hi => h.srcAt i (List.mem_range.1 hi)

/-- The checks of ENCODE, the last on the length of the stream (43_bitstream_encoder.md R113, R119). -/
def encodeChecks (s : State) : Except CmdFail Unit :=
  if s.codesValid = false then raise .sequenceError 2 0
  else if s.srcLen.toNat > s.params.maxSrcLen then raise .invalidInput 5 0
  else
    match scanSource s 0 s.srcList with
    | .error e => .error e
    | .ok () =>
      if byteCount (specStream s).length > s.params.outCapBytes then raise .outputOverflow (specStream s).length 0
      else .ok ()

theorem encodeSource_eq_map (s : State) : encodeSource s = (encodeChecks s).map fun _ => encodedState s := by
  unfold encodeSource encodeChecks
  split
  · rfl
  · split
    · rfl
    · cases scanSource s 0 s.srcList with
      | error e => rfl
      | ok u =>
        simp only [streamBits_eq]
        split
        · rfl
        · rfl

theorem SameEncodeOperands.encodeChecks_eq {s t : State} (h : SameEncodeOperands s t) :
    encodeChecks s = encodeChecks t := by
  simp only [encodeChecks, h.params, h.codesValid, h.srcLen, h.srcList_eq, h.specStream_eq, scanSource_congr h.ctabAt]

/-- `t₁` and `t₂` agree in ENCODE's results, of OUT in the bytes of the stream of `s`. -/
def SameStreamWritten (s t₁ t₂ : State) : Prop :=
  t₁.hdrBitLen = t₂.hdrBitLen ∧ t₁.outBitLen = t₂.outBitLen ∧
    ∀ j, j < byteCount (specStream s).length → t₁.outAt j = t₂.outAt j

theorem SameEncodeOperands.written {s t : State} (h : SameEncodeOperands s t) :
    SameStreamWritten s (encodedState s).succeed (encodedState t).succeed := by
  refine ⟨?_, ?_, fun j hj => ?_⟩
  · exact congrArg (fun b : Bits => BitVec.ofNat 16 b.length) h.specHeader_eq
  · exact congrArg (fun b : Bits => BitVec.ofNat 32 b.length) h.specStream_eq
  · calc (encodedState s).outAt j
      _ = packByte (specStream s) j := by rw [encodedState_outAt, if_pos hj]
      _ = (encodedState t).outAt j := by rw [encodedState_outAt, ← h.specStream_eq, if_pos hj]

/-- Settles O45: the checks agree, and so does the stream that is written. -/
theorem encodeDependsOnItsOperandsOnly : Obligations.EncodeDependsOnItsOperandsOnly := by
  intro s₁ s₂ t₁ hp hv hl hc hs h
  have hops : SameEncodeOperands s₁ s₂ := ⟨hp, hv, hl, hc, hs⟩
  rw [exec_eq_finish] at h ⊢
  simp only [encodeSource_eq_map, ← hops.encodeChecks_eq] at h ⊢
  exact finish_map_agree (fun _ => hops.written) h

/-! ### The operands of the builders -/

theorem ftabList_congr {s t : State} {n : Nat} (h : ∀ i, i < n → s.ftabAt i = t.ftabAt i) : s.ftabList n = t.ftabList n :=
  List.map_congr_left fun i hi => h i (List.mem_range.1 hi)

theorem buildTree_eq_map (s : State) :
    buildTree s = (validateTable s s.ftabLen.toNat).map fun _ => builtState s := by
  rcases buildTree_cases s with ⟨e, hv, h⟩ | ⟨hv, h⟩
  · rw [h, hv]
    rfl
  · rw [h, (validateTable_ok_iff s).2 hv]
    rfl

theorem validateTable_congr {s t : State} {n : Nat} (h : s.ftabList n = t.ftabList n) :
    validateTable s n = validateTable t n := by
  simp only [validateTable, h]

/-- `s` and `t` agree in BUILD_TREE's results. -/
def SameTreeWritten (s t : State) : Prop :=
  s.nodeCount = t.nodeCount ∧ s.rootCntLo = t.rootCntLo ∧ s.rootCntHi = t.rootCntHi ∧
    ∀ i, i ≤ 510 → s.nodeAt i = t.nodeAt i

theorem builtState_sameTree {s t : State} (hn : s.ftabLen = t.ftabLen)
    (hl : s.ftabList s.ftabLen.toNat = t.ftabList t.ftabLen.toNat) :
    SameTreeWritten (builtState s).succeed (builtState t).succeed := by
  refine ⟨?_, ?_, ?_, fun i hi => ?_⟩
  · simp only [State.succeed_nodeCount, builtState, hn]
  · simp only [State.succeed_rootCntLo, builtState, hn, ← hl]
  · simp only [State.succeed_rootCntHi, builtState, hn, ← hl]
  · rw [succeed_nodeAt, succeed_nodeAt, builtState_nodeAt s (by omega), builtState_nodeAt t (by omega), hl]

theorem exec_buildTree_agree {s₁ s₂ t₁ : State} (hn : s₁.ftabLen = s₂.ftabLen)
    (hf : ∀ i, i < s₁.ftabLen.toNat → s₁.ftabAt i = s₂.ftabAt i) (h : exec .buildTree s₁ = .next t₁) :
    ∃ t₂, exec .buildTree s₂ = .next t₂ ∧ t₁.err = t₂.err ∧ t₁.errInfo = t₂.errInfo ∧ t₁.errIndex = t₂.errIndex ∧
      (t₁.err = 0 → SameTreeWritten t₁ t₂) := by
  have hl := ftabList_congr hf
  rw [exec_eq_finish] at h ⊢
  simp only [buildTree_eq_map, ← hn, ← validateTable_congr hl] at h ⊢
  exact finish_map_agree (fun _ => builtState_sameTree hn (hn ▸ hl)) h

/-- What BUILD_CODES derives from NODE before it writes anything (42_code_assigner.md R102). -/
def derivedCodes (s : State) : Except CmdFail CodeList :=
  if s.treeValid = false then raise .sequenceError 1 0
  else if s.nodeCount = 0 then .error (.stopped .nodeIndexOutOfRange)
  else assignCodes s (s.nodeCount.toNat - 1)

theorem buildCodes_eq_map (s : State) : buildCodes s = (derivedCodes s).map (codedState s) := by
  unfold buildCodes derivedCodes
  split
  · rfl
  · split
    · rfl
    · cases assignCodes s (s.nodeCount.toNat - 1) with
      | error e => rfl
      | ok codes => rfl

theorem assignCodes_congr {s t : State} (h : ∀ i, i ≤ 510 → s.nodeAt i = t.nodeAt i) {r : Nat} (hr : r ≤ 510) :
    assignCodes s r = assignCodes t r := by
  simp only [assignCodes, h r hr, visit_congr h]

theorem derivedCodes_congr {s t : State} (hv : s.treeValid = t.treeValid) (hn : s.nodeCount = t.nodeCount)
    (h : ∀ i, i ≤ 510 → s.nodeAt i = t.nodeAt i) : derivedCodes s = derivedCodes t := by
  have hroot : t.nodeCount.toNat - 1 ≤ 510 := by
    have hlt := t.nodeCount.isLt
    omega
  simp only [derivedCodes, hv, hn, assignCodes_congr h hroot]

theorem codedState_sameTable (s t : State) (codes : CodeList) {c : Nat} (hc : c < 256) :
    (codedState s codes).succeed.ctabAt c = (codedState t codes).succeed.ctabAt c := by
  rw [succeed_ctabAt, succeed_ctabAt, codedState_ctabAt s codes hc, codedState_ctabAt t codes hc]

theorem exec_buildCodes_agree {s₁ s₂ t₁ : State} (hv : s₁.treeValid = s₂.treeValid) (hn : s₁.nodeCount = s₂.nodeCount)
    (hf : ∀ i, i ≤ 510 → s₁.nodeAt i = s₂.nodeAt i) (h : exec .buildCodes s₁ = .next t₁) :
    ∃ t₂, exec .buildCodes s₂ = .next t₂ ∧ t₁.err = t₂.err ∧ t₁.errInfo = t₂.errInfo ∧ t₁.errIndex = t₂.errIndex ∧
      (t₁.err = 0 → ∀ c, c < 256 → t₁.ctabAt c = t₂.ctabAt c) := by
  rw [exec_eq_finish] at h ⊢
  simp only [buildCodes_eq_map, ← derivedCodes_congr hv hn hf] at h ⊢
  exact finish_map_agree (P := fun t₁ t₂ => ∀ c, c < 256 → t₁.ctabAt c = t₂.ctabAt c)
    (fun codes _ => codedState_sameTable s₁ s₂ codes) h

/-- Settles O46: the checks of each builder agree, and so do the tree and the code table that are written. -/
theorem buildersDependOnTheirOperandsOnly : Obligations.BuildersDependOnTheirOperandsOnly :=
  ⟨fun _ _ _ => exec_buildTree_agree, fun _ _ _ => exec_buildCodes_agree⟩

/-! ### Every command in progress is completed -/

/-- No command stops in a state that meets the invariant: BUILD_CODES alone could, and it finds a tree in NODE. -/
theorem exec_completes {s : State} (hi : Inv s) (i : Instr) : ∃ t, exec i s = .next t := by
  rw [exec_eq_finish]
  cases i with
  | buildTree =>
    rcases buildTree_cases s with ⟨e, hv, h⟩ | ⟨-, h⟩
    · obtain ⟨c, rfl, -⟩ := validateTable_raises hv
      exact ⟨_, congrArg (finish s) h⟩
    · exact ⟨_, congrArg (finish s) h⟩
  | buildCodes =>
    cases hv : s.treeValid with
    | false => exact ⟨_, exec_buildCodes_no_tree hv⟩
    | true =>
      obtain ⟨tree, htree⟩ := hi.tree.1 (hi.tree.2 hv)
      obtain ⟨codes, h, -⟩ := buildCodes_holds hv htree
      exact ⟨_, congrArg (finish s) h⟩
  | encode =>
    rcases encodeSource_cases s with ⟨-, h⟩ | ⟨-, -, h⟩ | ⟨e, -, -, hscan, h⟩ | ⟨-, -, h⟩ | ⟨-, -, h⟩
    · exact ⟨_, congrArg (finish s) h⟩
    · exact ⟨_, congrArg (finish s) h⟩
    · obtain ⟨c, rfl, -⟩ := scanSource_raises hscan
      exact ⟨_, congrArg (finish s) h⟩
    · exact ⟨_, congrArg (finish s) h⟩
    · exact ⟨_, congrArg (finish s) h⟩

theorem engineComplete_completes {s : State} (hi : Inv s) : ∃ t, engineComplete s = .next t := by
  cases hd : decode s.cmdLatch with
  | ok i =>
    rw [engineComplete_ok hd]
    exact exec_completes hi i
  | error e =>
    rw [engineComplete_error hd, completeIllegal_eq]
    exact ⟨_, rfl⟩

/-- A HOST transaction is answered in one step, whatever it is, and taken from the inbox. -/
theorem step_host_next {s : State} {e : Event} {rest : List Event} (h : s.inbox = e :: rest) (he : isHostEvent e = true) :
    ∃ t, step s = .next t ∧ t.inbox = rest := by
  obtain ⟨t, ht⟩ : ∃ t, step s = .next t := by
    cases e with
    | hostRead a n => exact ⟨_, step_hostRead h⟩
    | hostWrite a n v => exact ⟨_, step_hostWrite h⟩
    | engineStep => cases he
    | resetInput => cases he
  exact ⟨t, ht, by rw [hostNeverWritesResults s t e rest h he ht]⟩

theorem run_succ_of_step {s t : State} (h : step s = .next t) (k : Nat) :
    Host.Core.run core (k + 1) s = Host.Core.run core k t := by
  have h' : core.step s = .next t := h
  simp only [Host.Core.run, h']

/-- Settles O51, by induction on the waiting transactions: each keeps the invariant and BUSY, and the quiet turn after the
last one is the completion. -/
theorem busyCommandIsCompleted : Obligations.BusyCommandIsCompleted := by
  intro s hi hb hhost
  induction hq : s.inbox generalizing s with
  | nil =>
    obtain ⟨t, ht⟩ := engineComplete_completes hi
    obtain ⟨hbusy, hdone, hinbox⟩ := engineComplete_ends ht
    have hs : step s = .next t := by rw [step_quiet hq, engineTurn_busy hb, ht]
    exact ⟨t, run_succ_of_step hs 0, hbusy, hinbox.trans hq, hdone⟩
  | cons e rest ih =>
    rw [hq] at hhost
    have he : isHostEvent e = true := hhost e List.mem_cons_self
    obtain ⟨t, hs, hrest⟩ := step_host_next hq he
    have hlater : ∀ x ∈ t.inbox, isHostEvent x = true := hrest ▸ fun x hx => hhost x (List.mem_cons_of_mem e hx)
    obtain ⟨u, hrun, hu⟩ := ih t (stepKeepsTheInvariant s t hi hs) (step_host_busy hq he hs hb) hlater hrest
    exact ⟨u, (run_succ_of_step hs _).trans hrun, hu⟩

end Sys2Proof.Machine
end

section
/-! PROOFS. The tree builder family: the checks of BUILD_TREE in their order, the merges of the two least with all that a
success writes, and the count of the root. -/

namespace Sys2Proof.Machine

open Sys2Proof.Safety

/-! ### What a success writes -/

/-- The updates of a successful BUILD_TREE, with ROOT_CNT as the two parts of the root's count (41_tree_builder.md R99). -/
theorem builtState_succeed {s : State} (h : TableValid s) :
    (builtState s).succeed = { s with
      node := (builtState s).node
      nodeCount := BitVec.ofNat 9 (2 * s.ftabLen.toNat - 1)
      rootCntLo := BitVec.ofNat 32 (((builtState s).nodeAt (2 * s.ftabLen.toNat - 2)).cnt.toNat % 2 ^ 32)
      rootCntHi := BitVec.ofNat 8 (((builtState s).nodeAt (2 * s.ftabLen.toNat - 2)).cnt.toNat / 2 ^ 32)
      treeValid := true, codesValid := false
      err := 0, errInfo := 0, errIndex := 0, busy := false, done := true } := by
  obtain ⟨hlo, hhi⟩ := builtState_rootCnt h
  rw [← hlo, ← hhi]
  rfl

theorem leafOf_eq (e : FreqEntry) :
    leafOf e =
      { cnt := BitVec.ofNat 40 e.cnt.toNat, lp := false, left := 0, rp := false, right := 0, hs := true, sym := e.sym } := by
  rw [BitVec.ofNat_toNat]
  rfl

/-- Settles O30: the built state, its updates written out, and what its NODE holds by the invariant of the merge loop. -/
theorem buildTreeMergesTheTwoLeast : Obligations.BuildTreeMergesTheTwoLeast := by
  intro s hv
  obtain ⟨-, hleaf, hmerge, hroot, -⟩ := builtState_facts hv
  refine ⟨_, exec_buildTree_valid hv, builtState_succeed hv, fun i hi => ?_, hmerge, hroot, fun i hlo hhi => ?_⟩
  · rw [succeed_nodeAt, hleaf i hi, leafOf_eq]
  · exact builtState_nodeAt_past hv hlo hhi

/-! ### Validation -/

/-- BUILD_TREE on a table that fails a check: InvalidInput with the check's number and index (41_tree_builder.md R92). -/
theorem exec_buildTree_invalid {s : State} {info index : Nat}
    (h : validateTable s s.ftabLen.toNat = raise .invalidInput info index) :
    exec .buildTree s = .next { s with
      err := 1, errInfo := BitVec.ofNat 32 info, errIndex := BitVec.ofNat 32 index, busy := false, done := true } :=
  exec_buildTree_error h

theorem validateTable_empty (s : State) : validateTable s 0 = raise .invalidInput 1 0 := rfl

theorem validateTable_tooLong (s : State) {n : Nat} (h : 256 < n) : validateTable s n = raise .invalidInput 2 0 := by
  rw [validateTable, if_neg (by omega), if_pos h]

theorem scanEntries_zeroCount {i : Nat} {seen : List Byte} {e : FreqEntry} {es : List FreqEntry} (h : e.cnt = 0) :
    scanEntries i seen (e :: es) = raise .invalidInput 3 i := if_pos h

theorem scanEntries_repeatedSymbol {i : Nat} {seen : List Byte} {e : FreqEntry} {es : List FreqEntry} (h : e.cnt ≠ 0)
    (hs : e.sym ∈ seen) : scanEntries i seen (e :: es) = raise .invalidInput 4 i :=
  (if_neg h).trans (if_pos hs)

/-- Where every entry before `i` passes, validation of the table comes to entry `i`, having seen their symbols. -/
theorem validateTable_at (s : State) {n i : Nat} (hn : n ≤ 256) (hi : i < n)
    (h : ∀ j, j < i → (s.ftabAt j).cnt ≠ 0 ∧ ∀ k, k < j → (s.ftabAt k).sym ≠ (s.ftabAt j).sym) :
    ∃ seen later, validateTable s n = scanEntries i seen (s.ftabAt i :: later) ∧
      ∀ b, b ∈ seen ↔ ∃ k, k < i ∧ (s.ftabAt k).sym = b := by
  have hreach := validateTable_reaches s hn hi h
  rw [range'_head hi, List.map_cons] at hreach
  exact ⟨_, _, hreach, fun b => by simp [State.ftabList]⟩

/-- Settles O29: the two checks of the length, the scan at the first entry that fails, and a valid table. -/
theorem buildTreeValidatesInOrder : Obligations.BuildTreeValidatesInOrder := by
  refine fun s => ⟨fun h => ?_, fun h => ?_, fun hn i hi hbefore => ?_, fun hv => ?_⟩
  · exact exec_buildTree_invalid (by rw [h]; exact validateTable_empty s)
  · exact exec_buildTree_invalid (validateTable_tooLong s h)
  · obtain ⟨seen, later, hreach, hseen⟩ := validateTable_at s hn hi hbefore
    refine ⟨fun hzero => ?_, fun hpos hdup => ?_⟩
    · exact exec_buildTree_invalid (hreach.trans (scanEntries_zeroCount hzero))
    · exact exec_buildTree_invalid (hreach.trans (scanEntries_repeatedSymbol hpos ((hseen _).2 hdup)))
  · exact ⟨_, exec_buildTree_valid hv, (builtState s).succeed_err⟩

/-! ### The count of the root -/

/-- ROOT_CNT_HI:ROOT_CNT_LO holds the root's count whole: its 40 bits are the two registers' 8 and 32. -/
theorem builtState_rootCnt_value {s : State} (h : TableValid s) :
    (builtState s).rootCntHi.toNat * 2 ^ 32 + (builtState s).rootCntLo.toNat =
      ((builtState s).nodeAt (2 * s.ftabLen.toNat - 2)).cnt.toNat := by
  obtain ⟨hlo, hhi⟩ := builtState_rootCnt h
  have hlt := ((builtState s).nodeAt (2 * s.ftabLen.toNat - 2)).cnt.isLt
  rw [hlo, hhi, BitVec.toNat_ofNat, BitVec.toNat_ofNat]
  omega

/-- No sum of the counts of a valid table overflows 40 bits (41_tree_builder.md R96). -/
theorem ftab_sum_le {s : State} {n : Nat} (h : n ≤ 256) :
    ((List.range n).map fun i => (s.ftabAt i).cnt.toNat).sum ≤ 256 * (2 ^ 32 - 1) := by
  have hsum := sum_counts_le (s.ftabList n)
  rw [ftabList_length, State.ftabList, List.map_map] at hsum
  exact hsum.trans (Nat.mul_le_mul_right _ h)

/-- Settles O31: a merge adds its children's counts, and the root's count is the weight of the tree that NODE holds. -/
theorem rootCountIsTheSumOfCounts : Obligations.RootCountIsTheSumOfCounts := by
  intro s hv
  obtain ⟨-, -, hmerge, -, tree, htree, -, -, hweight⟩ := builtState_facts hv
  have hroot := (holdsTree_cnt htree).1.trans hweight
  refine ⟨_, exec_buildTree_valid hv, fun i hni hi => ?_, hroot, (builtState_rootCnt_value hv).trans hroot,
    ftab_sum_le hv.2.1, by decide⟩
  obtain ⟨k, rfl⟩ := Nat.exists_eq_add_of_le hni
  obtain ⟨-, -, -, -, hcnt, -⟩ := hmerge k (by omega)
  exact hcnt

end Sys2Proof.Machine
end

section
/-! PROOFS. The code assigner family: BUILD_CODES without a tree, on a lone leaf, on a malformed root and on a tree, what its
codewords guarantee, and that no step stops. -/

namespace Sys2Proof.Machine

open Sys2Proof.Safety

/-! ### BUILD_CODES on a tree -/

/-- BUILD_CODES on a held tree succeeds, and CTAB is then the code table of that tree (42_code_assigner.md R108). -/
theorem exec_buildCodes_holds {s : State} {tree : HTree} (hv : s.treeValid = true) (h : BlockHoldsTree s tree) :
    ∃ codes, exec .buildCodes s = .next (codedState s codes).succeed ∧
      BlockHoldsCodes (codedState s codes).succeed tree := by
  obtain ⟨codes, hb, hentries⟩ := buildCodes_holds hv h
  obtain ⟨-, -, hdistinct, -⟩ := h
  exact ⟨codes, congrArg (finish s) hb, hdistinct, hentries⟩

/-- Settles O36: a success whose code table is the tree's, its updates listed. -/
theorem codewordsAreThePathsFromTheRoot : Obligations.CodewordsAreThePathsFromTheRoot := by
  intro s tree hv h
  obtain ⟨codes, hexec, -, hentries⟩ := exec_buildCodes_holds hv h
  exact ⟨_, hexec, rfl, hentries⟩

/-! ### The codewords of a code table -/

theorem holdsCodes_valid_iff {s : State} {tree : HTree} (h : BlockHoldsCodes s tree) (c : Byte) :
    (s.ctabAt c.toNat).valid = true ↔ c ∈ symbols tree := by
  rw [h.2 c, treeEntry_valid_iff]

theorem codeOf_length (s : State) (c : Nat) : (s.codeOf c).length = (s.ctabAt c).len.toNat := codeBits_length _

/-- BUILD_TREE and then BUILD_CODES on a valid table give the code table of a tree over the table's symbols. -/
theorem buildTree_buildCodes_holds {s : State} (h : TableValid s) :
    ∃ codes tree, exec .buildCodes (builtState s).succeed = .next (codedState (builtState s).succeed codes).succeed ∧
      BlockHoldsCodes (codedState (builtState s).succeed codes).succeed tree ∧
      ∀ c, c ∈ symbols tree ↔ ∃ i, i < s.ftabLen.toNat ∧ (s.ftabAt i).sym = c := by
  obtain ⟨tree, htree, hperm⟩ := builtState_holds h
  obtain ⟨codes, hexec, hcodes⟩ := exec_buildCodes_holds rfl htree
  exact ⟨codes, tree, hexec, hcodes, fun c => by simp [hperm.mem_iff, State.ftabList]⟩

/-- Settles O37: the code table is that of a tree whose symbols are the table's. -/
theorem tableSymbolsGetFreeCodewords : Obligations.TableSymbolsGetFreeCodewords := by
  intro s h
  obtain ⟨codes, tree, hexec, hcodes, hsyms⟩ := buildTree_buildCodes_holds h
  obtain ⟨hfree, hpos⟩ := codes_prefix_free hcodes
  refine ⟨_, _, exec_buildTree_valid h, hexec, rfl, rfl, fun c => ?_, hfree, fun c hv => ⟨?_, ?_, codeOf_length _ _⟩⟩
  · exact (holdsCodes_valid_iff hcodes c).trans (hsyms c)
  · rw [← codeOf_length]
    exact hpos c hv
  · exact Nat.le_of_lt_succ (BitVec.isLt _)

/-- Settles O38: the invariant gives a tree whose code table CTAB is. -/
theorem validCodewordsArePrefixFree : Obligations.ValidCodewordsArePrefixFree := by
  intro s hi hv
  obtain ⟨tree, hcodes⟩ := hi.codes hv
  obtain ⟨hfree, hpos⟩ := codes_prefix_free hcodes
  exact ⟨hfree, fun c hc => List.ne_nil_of_length_pos (hpos c hc)⟩

/-! ### Checks and corner cases -/

/-- Settles O33: the first check of BUILD_CODES. -/
theorem buildCodesWithoutTreeIsSequenceError : Obligations.BuildCodesWithoutTreeIsSequenceError :=
  fun _ => exec_buildCodes_no_tree

/-- A root that is a leaf gets "0" (42_code_assigner.md R105). -/
theorem assignCodes_leaf {s : State} {r : Nat} (hl : (s.nodeAt r).lp = false) (hr : (s.nodeAt r).rp = false)
    (hs : (s.nodeAt r).hs = true) : assignCodes s r = .ok [((s.nodeAt r).sym, [false])] := by
  simp [assignCodes, hl, hr, hs]

theorem entryFor_lone_self (b : Byte) (p : Bits) : entryFor [(b, p)] b.toNat = validEntry p := by
  simp [entryFor, codeFor]

theorem entryFor_lone_other {b : Byte} (p : Bits) {c : Nat} (hc : c < 256) (h : c ≠ b.toNat) :
    entryFor [(b, p)] c = absentEntry := by
  have hne : b ≠ BitVec.ofNat 8 c := by
    rintro rfl
    rw [BitVec.toNat_ofNat, Nat.mod_eq_of_lt hc] at h
    exact h rfl
  simp [entryFor, codeFor, hne]

/-- Settles O34: the one codeword recorded is "0", and CTAB has an entry for its symbol only. -/
theorem loneLeafGetsOneBitCodeword : Obligations.LoneLeafGetsOneBitCodeword := by
  intro s hv hn hl hr hs
  have hcodes : assignCodes s (s.nodeCount.toNat - 1) = .ok [((s.nodeAt 0).sym, [false])] := by
    rw [hn]
    exact assignCodes_leaf hl hr hs
  have hctab : ∀ c, c < 256 → (codedState s [((s.nodeAt 0).sym, [false])]).succeed.ctabAt c =
      entryFor [((s.nodeAt 0).sym, [false])] c := fun c hc => codedState_ctabAt s _ hc
  have hself := (hctab _ (s.nodeAt 0).sym.isLt).trans (entryFor_lone_self _ _)
  refine ⟨_, exec_buildCodes_ok hv (by rw [hn]; decide) hcodes, rfl, rfl, ?_, ?_, ?_, fun c hc hne => ?_⟩
  · rw [hself, validEntry_valid]
  · rw [State.codeOf, hself, codeBits_validEntry _ (by decide)]
  · rw [hself]
    rfl
  · exact (hctab c hc).trans (entryFor_lone_other _ hc hne)

/-- A node with exactly one child present (42_code_assigner.md R106). -/
theorem visit_oneChild {s : State} {fuel i : Nat} {p : Bits} {acc : CodeList} (hi : i < 511)
    (h : (s.nodeAt i).lp ≠ (s.nodeAt i).rp) : visit s (fuel + 1) i p acc = raise .invalidTree 0 i := by
  have hsize : ¬ i ≥ Config.maxNodes := Nat.not_le.2 hi
  simp [visit, hsize, h]

/-- A root with exactly one child present, or with no child and no symbol (42_code_assigner.md R106). -/
theorem assignCodes_malformed {s : State} {r : Nat} (hr : r < 511)
    (h : (s.nodeAt r).lp ≠ (s.nodeAt r).rp ∨
      ((s.nodeAt r).lp = false ∧ (s.nodeAt r).rp = false ∧ (s.nodeAt r).hs = false)) :
    assignCodes s r = raise .invalidTree 0 r := by
  rcases h with hne | ⟨hl, hrp, hs⟩
  · have hinner : ¬ ((s.nodeAt r).lp = false ∧ (s.nodeAt r).rp = false) := fun hb => hne (hb.1.trans hb.2.symm)
    rw [assignCodes, if_neg hinner]
    exact visit_oneChild hr hne
  · simp [assignCodes, hl, hrp, hs]

/-- Settles O35: the traversal raises InvalidTree at the root. -/
theorem malformedRootIsInvalidTree : Obligations.MalformedRootIsInvalidTree := by
  intro s hv hn nd h
  have hlt := s.nodeCount.isLt
  exact exec_buildCodes_error hv hn (assignCodes_malformed (by omega) h)

/-! ### No step stops -/

/-- The errors of BUILD_CODES that no run raises (42_code_assigner.md R106, R107). -/
abbrev IsTreeError (name : ErrorName) : Prop := name = .invalidTree ∨ name = .codeTooLong

theorem errorCode_ne_of_not_isTreeError {name : ErrorName} (h : ¬ IsTreeError name) :
    errorCode name ≠ 2 ∧ errorCode name ≠ 3 := by
  cases name with
  | invalidTree => exact absurd (.inl rfl) h
  | codeTooLong => exact absurd (.inr rfl) h
  | _ => decide

theorem raise_raised {α : Type} {name : ErrorName} {info index : Nat} {e : CmdError}
    (h : (raise name info index : Except CmdFail α) = .error (.raised e)) : e.name = name := by
  cases h
  rfl

/-- BUILD_TREE raises InvalidInput only (41_tree_builder.md R91). -/
theorem buildTree_raised {s : State} {e : CmdError} (h : buildTree s = .error (.raised e)) : e.name = .invalidInput := by
  rcases buildTree_cases s with ⟨f, hv, hb⟩ | ⟨-, hb⟩
  · obtain ⟨c, rfl, hc⟩ := validateTable_raises hv
    cases hb.symm.trans h
    exact hc
  · cases hb.symm.trans h

/-- Under the invariant BUILD_CODES finds a tree where TREE_VALID = 1, and so raises SequenceError only. -/
theorem buildCodes_raised {s : State} {e : CmdError} (hi : Inv s) (h : buildCodes s = .error (.raised e)) :
    e.name = .sequenceError := by
  cases hv : s.treeValid with
  | false =>
    have hb : buildCodes s = raise .sequenceError 1 0 := if_pos hv
    exact raise_raised (hb.symm.trans h)
  | true =>
    obtain ⟨tree, htree⟩ := hi.tree.1 (hi.tree.2 hv)
    obtain ⟨codes, hb, -⟩ := buildCodes_holds hv htree
    cases hb.symm.trans h

/-- ENCODE raises no error of the tree (43_bitstream_encoder.md R113, R119). -/
theorem encodeSource_raised {s : State} {e : CmdError} (h : encodeSource s = .error (.raised e)) :
    ¬ IsTreeError e.name := by
  rcases encodeSource_cases s with ⟨-, hb⟩ | ⟨-, -, hb⟩ | ⟨f, -, -, hscan, hb⟩ | ⟨-, -, hb⟩ | ⟨-, -, hb⟩
  · rw [raise_raised (hb.symm.trans h)]
    decide
  · rw [raise_raised (hb.symm.trans h)]
    decide
  · obtain ⟨c, rfl, hc⟩ := scanSource_raises hscan
    cases hb.symm.trans h
    rw [hc]
    decide
  · rw [raise_raised (hb.symm.trans h)]
    decide
  · cases hb.symm.trans h

theorem exec_err_ne {s t : State} (hi : Inv s) {i : Instr} (h : exec i s = .next t) : t.err ≠ 2 ∧ t.err ≠ 3 := by
  rw [exec_eq_finish] at h
  rcases finish_cases h with ⟨u, -, rfl⟩ | ⟨e, he, rfl⟩
  · rw [State.succeed_err]
    decide
  · refine errorCode_ne_of_not_isTreeError (name := e.name) ?_
    cases i with
    | buildTree =>
      rw [buildTree_raised he]
      decide
    | buildCodes =>
      rw [buildCodes_raised hi he]
      decide
    | encode => exact encodeSource_raised he

theorem engineComplete_err_ne {s t : State} (hi : Inv s) (h : engineComplete s = .next t) : t.err ≠ 2 ∧ t.err ≠ 3 := by
  cases hd : decode s.cmdLatch with
  | ok i =>
    rw [engineComplete_ok hd] at h
    exact exec_err_ne hi h
  | error e =>
    rw [engineComplete_error hd, completeIllegal_eq] at h
    injection h with h
    subst h
    exact errorCode_ne_of_not_isTreeError (name := .illegalCommand) (by decide)

theorem HostFrame.err {s t : State} (h : HostFrame s t) : t.err = s.err := by rw [h]

/-- Under the invariant a step turns ERR into neither InvalidTree nor CodeTooLong: it leaves ERR, resets it, or is the
completion of a command. -/
theorem step_err {s t : State} (hi : Inv s) (h : step s = .next t) : t.err = s.err ∨ (t.err ≠ 2 ∧ t.err ≠ 3) := by
  rcases step_cases h with ⟨a, n, rest, -, rfl⟩ | ⟨a, n, v, rest, -, rfl⟩ | ⟨rest, -, rfl⟩ | ⟨rest, -, -, rfl⟩ |
    ⟨rest, -, -, hc⟩
  · exact .inl (hostFrame_memRead _ a n).err
  · exact .inl (hostFrame_memWrite _ a n v).err
  · right
    rw [State.onReset_err]
    decide
  · exact .inl rfl
  · exact .inr (engineComplete_err_ne (inv_inbox hi rest) hc)

theorem engineTurn_completes {s : State} (hi : Inv s) : ∃ t, engineTurn s = .next t := by
  cases hb : s.busy with
  | false => exact ⟨s, engineTurn_idle hb⟩
  | true =>
    rw [engineTurn_busy hb]
    exact engineComplete_completes hi

/-- Under the invariant every step answers a next state. -/
theorem step_completes {s : State} (hi : Inv s) : ∃ t, step s = .next t := by
  cases h : s.inbox with
  | nil =>
    rw [step_quiet h]
    exact engineTurn_completes hi
  | cons e rest =>
    cases e with
    | hostRead a n => exact ⟨_, step_hostRead h⟩
    | hostWrite a n v => exact ⟨_, step_hostWrite h⟩
    | engineStep =>
      rw [step_engineStep h]
      exact engineTurn_completes (inv_inbox hi rest)
    | resetInput => exact ⟨_, step_resetInput h⟩

/-- Settles O50: every step answers a next state, and none raises an error of the tree. -/
theorem noStepStopsUnderTheInvariant : Obligations.NoStepStopsUnderTheInvariant := by
  intro s hi
  obtain ⟨t, ht⟩ := step_completes hi
  refine ⟨t, ht, ?_⟩
  rcases step_err hi ht with h | ⟨h₂, h₃⟩
  · rw [h]
    exact ⟨id, id⟩
  · exact ⟨fun _ => h₂, fun _ => h₃⟩

end Sys2Proof.Machine
end

section
/-! PROOFS. The bitstream encoder family: the checks of ENCODE in their order, the stream that is packed into OUT or does not
fit, the lengths of the header and of the stream, and the header parsed back. -/

namespace Sys2Proof.Machine

open Sys2Proof.Safety

/-! ### The stream in OUT -/

/-- Settles O40: the success of a ready block, its updates written out, and OUT byte by byte. -/
theorem encodeWritesThePackedStream : Obligations.EncodeWritesThePackedStream := by
  intro s hr hf
  refine ⟨(encodedState s).succeed, exec_encode_ready hr hf, rfl, fun j k hj hk => ?_, fun j hj => ?_⟩
  · have hbyte : (encodedState s).succeed.outAt j = packByte (specStream s) j :=
      (encodedState_outAt s j).trans (if_pos hj)
    rw [hbyte, packByte_getLsbD _ _ _ hk]
  · exact (encodedState_outAt s j).trans (if_neg (Nat.not_lt.2 hj))

/-! ### The header length -/

/-- A tree with two leaves or more has an internal root: its header counts 16 bits and a path for each symbol. -/
theorem specHeader_length_node {s : State} {l r : HTree} (h : BlockHoldsCodes s (.node l r)) :
    (specHeader s).length = pathSum (.node l r) 16 := by
  rw [specHeader_length_tree h, pathSum]
  exact Finset.sum_congr rfl fun _ _ => rfl

/-- The header of a lone leaf is one entry, with the codeword "0" (42_code_assigner.md R105). -/
theorem specHeader_length_leaf {s : State} {b : Byte} {w : Nat} (h : BlockHoldsCodes s (.leaf b w)) :
    (specHeader s).length = 17 := by
  rw [specHeader_length_tree h, ← pathSum_leaf b w 17]
  refine Finset.sum_congr rfl fun c _ => ?_
  by_cases hb : b = BitVec.ofNat 8 c <;> simp [codeword, pathTo, hb]

/-- A code table of one symbol is that of a lone leaf. -/
theorem specHeader_length_one {s : State} {t : HTree} (h : BlockHoldsCodes s t) (h₁ : (symbols t).length = 1) :
    (specHeader s).length = 17 := by
  cases t with
  | leaf b w => exact specHeader_length_leaf h
  | node l r =>
    have hl := symbols_length_pos l
    have hr := symbols_length_pos r
    simp only [symbols, List.length_append] at h₁
    omega

/-- With n symbols, n at least 2, the codewords sum up to at most (n - 1)(n + 2)/2 (43_bitstream_encoder.md R116). -/
theorem specHeader_length_le_of_two {s : State} {t : HTree} (h : BlockHoldsCodes s t) (h₂ : 2 ≤ (symbols t).length) :
    (specHeader s).length ≤ 16 * (symbols t).length + ((symbols t).length - 1) * ((symbols t).length + 2) / 2 := by
  cases t with
  | leaf b w => simp [symbols] at h₂
  | node l r =>
    have hsum := pathSum_le h.1 16
    rw [specHeader_length_node h]
    generalize (symbols (.node l r)).length = n at *
    obtain ⟨m, rfl⟩ := Nat.exists_eq_add_of_le' h₂
    have hprod : (m + 2 - 1) * (m + 2 + 2) + 2 = (m + 2) * (m + 2) + (m + 2) := by
      rw [show m + 2 - 1 = m + 1 by omega]
      ring
    omega

/-- Settles O42: the length by its entries; its bounds by the tree whose code table CTAB is. -/
theorem headerLengthFitsSixteenBits : Obligations.HeaderLengthFitsSixteenBits := by
  intro s hi hv
  obtain ⟨t, ht⟩ := hi.codes hv
  refine ⟨headerEntries_length s (List.range 256), ?_⟩
  rw [codePairs_length ht]
  exact ⟨specHeader_length_one ht, specHeader_length_le_of_two ht, length_le_of_nodup ht.1, specHeader_length_le ht⟩

/-! ### The parse of the header -/

/-- Where the header length fits its 16 bits, the header parsed back is the code table (43_bitstream_encoder.md R122). -/
theorem parseHeader_specStream {s : State} (h : (specHeader s).length < 2 ^ 16) :
    parseHeader (specStream s) = (codePairs s, (specHeader s).length) := by
  have hfield : (msbBits 16 (specHeader s).length).length = 16 := msbBits_length 16 _
  rw [parseHeader, specStream, List.append_assoc, List.take_left' hfield, List.drop_left' hfield,
    bitsValue_msbBits 16 _ h]
  exact parseEntries_header s _ (List.range 256) (fun c hc => List.mem_range.1 hc) (specPayload s) 0 _
    (Nat.zero_add _) (by omega)

/-- Settles O44, since the header length fits its 16 bits. -/
theorem headerRoundTrip : Obligations.HeaderRoundTrip := by
  intro s hi hv
  have hle := specHeader_length_le_of_inv hi hv
  exact parseHeader_specStream (by omega)

/-! ### The checks -/

/-- ENCODE where a check fails: the error registers, and nothing else. -/
theorem exec_encode_raise {s : State} {name : ErrorName} {info index : Nat}
    (h : encodeSource s = raise name info index) :
    exec .encode s = .next { s with
      err := errorCode name, errInfo := BitVec.ofNat 32 info, errIndex := BitVec.ofNat 32 index,
      busy := false, done := true } :=
  congrArg (finish s) h

theorem encodeSource_tooLong {s : State} (hv : s.codesValid = true) (hl : s.params.maxSrcLen < s.srcLen.toNat) :
    encodeSource s = raise .invalidInput 5 0 := by
  rw [encodeSource, if_neg (by simp [hv]), if_pos hl]

/-- The source around index `i`. -/
theorem srcList_split (s : State) {i : Nat} (hi : i < s.srcLen.toNat) :
    ∃ later, s.srcList = (List.range i).map s.srcAt ++ s.srcAt i :: later := by
  have hlen : i < s.srcList.length := by simpa [State.srcList] using hi
  have htake : s.srcList.take i = (List.range i).map s.srcAt := by
    rw [State.srcList, ← List.map_take, List.take_range, Nat.min_eq_left hi.le]
  have hget : s.srcList[i] = s.srcAt i := by simp [State.srcList]
  refine ⟨s.srcList.drop (i + 1), ?_⟩
  rw [← htake, ← hget, ← List.drop_eq_getElem_cons hlen, List.take_append_drop]

/-- The scan raises UnknownSymbol at the first source byte with no codeword. -/
theorem scanSource_firstUnknown {s : State} {i : Nat} (hi : i < s.srcLen.toNat)
    (hbefore : ∀ j, j < i → (s.ctabAt (s.srcAt j).toNat).valid = true) (hu : (s.ctabAt (s.srcAt i).toNat).valid = false) :
    scanSource s 0 s.srcList = raise .unknownSymbol (s.srcAt i).toNat i := by
  obtain ⟨later, hsplit⟩ := srcList_split s hi
  have hvalid : ∀ b ∈ (List.range i).map s.srcAt, (s.ctabAt b.toNat).valid = true := by
    intro b hb
    obtain ⟨j, hj, rfl⟩ := List.mem_map.1 hb
    exact hbefore j (List.mem_range.1 hj)
  rw [hsplit, scanSource_append s 0 _ _ hvalid, scanSource, if_neg (by simp [hu]), List.length_map, List.length_range,
    Nat.zero_add]

theorem encodeSource_unknownSymbol {s : State} (hv : s.codesValid = true) (hl : s.srcLen.toNat ≤ s.params.maxSrcLen)
    {i : Nat} (hi : i < s.srcLen.toNat) (hbefore : ∀ j, j < i → (s.ctabAt (s.srcAt j).toNat).valid = true)
    (hu : (s.ctabAt (s.srcAt i).toNat).valid = false) :
    encodeSource s = raise .unknownSymbol (s.srcAt i).toNat i := by
  rw [encodeSource, if_neg (by simp [hv]), if_neg (Nat.not_lt.2 hl), scanSource_firstUnknown hi hbefore hu]
  rfl

/-- Settles O39: the two checks of the state, and the scan at the first byte with no codeword. -/
theorem encodeChecksInOrder : Obligations.EncodeChecksInOrder := fun _ =>
  ⟨exec_encode_no_codes, fun hv hl => exec_encode_raise (encodeSource_tooLong hv hl),
    fun hv hl _ hi hbefore hu => exec_encode_raise (encodeSource_unknownSymbol hv hl hi hbefore hu)⟩

/-! ### The length of the stream -/

theorem encodeSource_overflow {s : State} (hr : EncodeReady s)
    (h : s.params.outCapBytes < byteCount (specStream s).length) :
    encodeSource s = raise .outputOverflow (specStream s).length 0 :=
  (encodeSource_ready hr).trans (if_pos h)

/-- With the reference parameters the stream is at most the length field, the longest header and 255 bits for each of 65536
source bytes (43_bitstream_encoder.md R119). -/
theorem specStream_length_le_reference {s : State} (hi : Inv s) (hr : EncodeReady s) (hp : s.params = Config.reference) :
    (specStream s).length ≤ 16748687 := by
  obtain ⟨hv, hlen, -⟩ := hr
  have hheader := specHeader_length_le_of_inv hi hv
  have hpayload := specPayload_length_le s
  have hcap : s.srcLen.toNat ≤ 65536 := by rwa [hp] at hlen
  have hstream := specStream_length s
  omega

/-- Settles O41: the last check of ENCODE, and the reference bound, which is below the capacity of OUT. -/
theorem overflowingStreamWritesNothing : Obligations.OverflowingStreamWritesNothing := by
  refine ⟨fun s hr h => exec_encode_raise (encodeSource_overflow hr h), fun s hi hr hp => ?_⟩
  have hle := specStream_length_le_reference hi hr hp
  have hfits : byteCount (specStream s).length ≤ s.params.outCapBytes := by
    rw [hp]
    show ((specStream s).length + 7) / 8 ≤ 2097152
    omega
  exact ⟨hle, _, exec_encode_ready hr hfits, (encodedState s).succeed_err⟩

/-- HDR_BITLEN holds the header length whole. -/
theorem encodedState_hdrBitLen {s : State} (hi : Inv s) (hr : EncodeReady s) :
    (encodedState s).hdrBitLen.toNat = (specHeader s).length := by
  have hle := specHeader_length_le_of_inv hi hr.1
  exact (BitVec.toNat_ofNat _ _).trans (Nat.mod_eq_of_lt (by omega))

/-- OUT_BITLEN holds the length of the stream whole. -/
theorem encodedState_outBitLen {s : State} (hi : Inv s) (hr : EncodeReady s) :
    (encodedState s).outBitLen.toNat = (specStream s).length :=
  (BitVec.toNat_ofNat _ _).trans (Nat.mod_eq_of_lt (specStream_length_lt hi hr))

/-- Settles O43: the three parts of the stream, its bound, and the two registers, which cut neither length. -/
theorem streamLengthFitsThirtyTwoBits : Obligations.StreamLengthFitsThirtyTwoBits := by
  intro s hi hr
  refine ⟨rfl, specStream_length s, specStream_length_lt hi hr, fun t h he => ?_⟩
  obtain ⟨-, -, rfl⟩ := exec_encode_success h he
  exact ⟨encodedState_hdrBitLen hi hr, encodedState_outBitLen hi hr⟩

end Sys2Proof.Machine
end

section
/-! PROOFS. The reset family: the state after reset, field by field, the reset input, and the invariant at reset. -/

namespace Sys2Proof.Machine

open Sys2Proof.Safety

/-! ### The values after reset -/

/-- No array cell is written at reset, so each reads as its draw (10_state.md R38). -/
theorem resetWith_cells (p : Config.Params) (k i : Nat) :
    (State.resetWith p k).ftabAt i = { sym := Config.resetFtabSym k i, cnt := Config.resetFtabCnt k i } ∧
    (State.resetWith p k).nodeAt i = Config.resetNode k i ∧ (State.resetWith p k).ctabAt i = Config.resetCode k i ∧
    (State.resetWith p k).srcAt i = Config.resetSrc k i ∧ (State.resetWith p k).outAt i = Config.resetOut k i := by
  refine ⟨?ftab, ?node, ?ctab, ?src, ?out⟩
  case ftab => simp [State.ftabAt, State.resetWith]
  case node => simp [State.nodeAt, State.resetWith]
  case ctab => simp [State.ctabAt, State.resetWith]
  case src => simp [State.srcAt, State.resetWith]
  case out => simp [State.outAt, State.resetWith]

/-- The table of 70_reset_and_hazards.md R140: the constants, the flags, the registers, the arrays and irq. -/
theorem resetWith_holdsResetValues (p : Config.Params) (k : Nat) : HoldsResetValues (State.resetWith p k) p := by
  have herror : (State.resetWith p k).errorFlag = false := by simp [errorFlag_eq_decide, State.resetWith]
  have hirq : (State.resetWith p k).irq = false := irq_of_not_done rfl
  refine ⟨rfl, rfl, rfl, rfl, rfl, rfl, rfl, herror, ?_⟩
  exact ⟨rfl, rfl, rfl, rfl, rfl, rfl, rfl, rfl, rfl, rfl, rfl, rfl, rfl, rfl, rfl, resetWith_cells p k, hirq⟩

/-- The reset input keeps only what no reset value reads: the inbox, the answer and the draws made. -/
theorem onReset_holdsResetValues (s : State) : HoldsResetValues s.onReset s.params :=
  resetWith_holdsResetValues s.params (s.resets + 1)

/-- Settles O26, by the table of the reset values; the reference block is one of those blocks. -/
theorem resetLeavesTheStatedValues : Obligations.ResetLeavesTheStatedValues :=
  ⟨resetWith_holdsResetValues, resetWith_holdsResetValues Config.reference 0⟩

/-- Settles O27: the step of the reset input does not look at BUSY. -/
theorem resetInputAbandonsTheCommand : Obligations.ResetInputAbandonsTheCommand := fun s rest hin =>
  ⟨_, step_resetInput hin, onReset_holdsResetValues { s with inbox := rest }⟩

/-! ### The invariant at reset -/

/-- At reset no result is valid and NODE_COUNT is 0, so what the invariant says of trees, codes and the stream asks
nothing. -/
theorem resetWith_inv {p : Config.Params} (hp : paramsWellFormed p) (k : Nat) : Inv (State.resetWith p k) where
  params := hp
  tables := resetWith_tablesOk p k
  error := by simp [ErrorOk, State.resetWith]
  flags := by simp [FlagsOk, State.resetWith]
  tree := by simp [TreeOk, State.resetWith]
  codes := by simp [CodesOk, State.resetWith]
  out := by simp [OutOk, State.resetWith]

/-- Settles O47; the reference parameters are well formed (00_scope.md R9). -/
theorem resetMeetsTheInvariant : Obligations.ResetMeetsTheInvariant :=
  ⟨fun _ k hp => resetWith_inv hp k, resetWith_inv (by decide) 0⟩

end Sys2Proof.Machine
end
